-- ==== Sys2Proof/Word.lean ====
section
/-! DEFINITION. The machine's word, its register indices and its addresses (00_scope.md R6, R8, R9). -/

namespace Sys2Proof

/-- A 16-bit value, bit 15 most significant: a register, a memory cell or an instruction (R6, R8). -/
abbrev Word := BitVec 16

/-- The index of one of the eight general registers `$0` to `$7` (10_state.md R21). -/
abbrev RegIdx := Fin 8

/-- The address of one of the 8192 memory cells, after wrapping (20_memory.md R41). -/
abbrev Addr := Fin 8192

/-- The raw 7-bit immediate field (30_encoding.md R66). -/
abbrev Imm7 := BitVec 7

/-- The raw 13-bit jump target (30_encoding.md R65). -/
abbrev Imm13 := BitVec 13

/-- The 4-bit selector of the opcode-0 instructions (30_encoding.md R61). -/
abbrev Func := BitVec 4

end Sys2Proof
end

