-- ==== Sys2Proof/Syntax.lean ====
section
/-! DEFINITION. The thirteen instructions of 30_encoding.md R71 and R72, with the fields each one uses (R64, R73). -/

namespace Sys2Proof

/-- One constructor per mnemonic of spec/opcode_table.json. Operands stand in field order (rA, rB, rC). `slt` keeps
its `func`, so that its word can be written back (each non-`jr` word is its own instruction, R73); `jr` has no
place for bits 9–4, every value of which gives the same `jr` (R73). -/
inductive Instr where
  | add (rA rB rC : RegIdx)
  | sub (rA rB rC : RegIdx)
  | or (rA rB rC : RegIdx)
  | and (rA rB rC : RegIdx)
  | slt (rA rB rC : RegIdx) (func : Func)
  | jr (rA : RegIdx)
  | addi (rA rB : RegIdx) (imm7 : Imm7)
  | j (imm13 : Imm13)
  | jal (imm13 : Imm13)
  | lw (rA rB : RegIdx) (imm7 : Imm7)
  | sw (rA rB : RegIdx) (imm7 : Imm7)
  | jeq (rA rB : RegIdx) (imm7 : Imm7)
  | slti (rA rB : RegIdx) (imm7 : Imm7)
  deriving DecidableEq, Repr

/-- The instruction's mnemonic as spec/opcode_table.json spells it. -/
def Instr.mnemonic : Instr → String
  | .add _ _ _ => "add"
  | .sub _ _ _ => "sub"
  | .or _ _ _ => "or"
  | .and _ _ _ => "and"
  | .slt _ _ _ _ => "slt"
  | .jr _ => "jr"
  | .addi _ _ _ => "addi"
  | .j _ => "j"
  | .jal _ => "jal"
  | .lw _ _ _ => "lw"
  | .sw _ _ _ => "sw"
  | .jeq _ _ _ => "jeq"
  | .slti _ _ _ => "slti"

end Sys2Proof
end

