-- ==== Sys2Proof/WellFormed.lean ====
section
/-! DEFINITION. Which instructions have an encoding: every one but an `slt` whose `func` selects another
instruction (30_encoding.md R72). -/

namespace Sys2Proof

/-- The eleven func values of `slt`: every value but 0, 1, 2, 3 and 8 (30_encoding.md R72). -/
def sltFunc (func : Func) : Bool :=
  func != 0 && func != 1 && func != 2 && func != 3 && func != 8

/-- The instruction is one that some word stands for. The types bound every other field. -/
def Instr.wf : Instr → Bool
  | .slt _ _ _ func => sltFunc func
  | .add _ _ _ => true
  | .sub _ _ _ => true
  | .or _ _ _ => true
  | .and _ _ _ => true
  | .jr _ => true
  | .addi _ _ _ => true
  | .j _ => true
  | .jal _ => true
  | .lw _ _ _ => true
  | .sw _ _ _ => true
  | .jeq _ _ _ => true
  | .slti _ _ _ => true

end Sys2Proof
end

