-- ==== Sys2Proof/Decode.lean ====
section
/-! DEFINITION. The instruction decoder (30_encoding.md R60 to R74), the encoder (R78) and the opcode map as match
and mask values (R79). -/

namespace Sys2Proof

/-- The seven fields the decoder extracts from every word (30_encoding.md R61, R62). -/
structure Fields where
  opcode : BitVec 3
  rA : RegIdx
  rB : RegIdx
  rC : RegIdx
  func : Func
  imm7 : Imm7
  imm13 : Imm13
  deriving DecidableEq, Repr

/-- A 3-bit field read as a register index (30_encoding.md R70: used directly). -/
def regOf (b : BitVec 3) : RegIdx := ⟨b.toNat, b.isLt⟩

/-- A register index as a 3-bit field. -/
def regBits (r : RegIdx) : BitVec 3 := BitVec.ofNat 3 r.val

/-- Field extraction by bit position (30_encoding.md R61), a pure total function (R63). -/
def extractFields (w : Word) : Fields where
  opcode := w.extractLsb 15 13
  rA := regOf (w.extractLsb 12 10)
  rB := regOf (w.extractLsb 9 7)
  rC := regOf (w.extractLsb 6 4)
  func := w.extractLsb 3 0
  imm7 := w.extractLsb 6 0
  imm13 := w.extractLsb 12 0

/-- What the decoder answers. `undefined` is the explicit fallback variant the source advises (40_engine.md R99);
it stands for the opcode map's row "other", which no 3-bit opcode matches (30_encoding.md R71, R74). -/
inductive Decoded where
  | instr (i : Instr)
  | undefined
  deriving DecidableEq, Repr

/-- The opcode-0 instructions by func (30_encoding.md R72): every value not listed is `slt`. -/
def selectFunc (f : Fields) : Instr :=
  match f.func.toNat with
  | 0 => .add f.rA f.rB f.rC
  | 1 => .sub f.rA f.rB f.rC
  | 2 => .or f.rA f.rB f.rC
  | 3 => .and f.rA f.rB f.rC
  | 8 => .jr f.rA
  | _ => .slt f.rA f.rB f.rC f.func

/-- The instruction class by opcode (30_encoding.md R71). -/
def selectInstr (f : Fields) : Decoded :=
  match f.opcode.toNat with
  | 0 => .instr (selectFunc f)
  | 1 => .instr (.addi f.rA f.rB f.imm7)
  | 2 => .instr (.j f.imm13)
  | 3 => .instr (.jal f.imm13)
  | 4 => .instr (.lw f.rA f.rB f.imm7)
  | 5 => .instr (.sw f.rA f.rB f.imm7)
  | 6 => .instr (.jeq f.rA f.rB f.imm7)
  | 7 => .instr (.slti f.rA f.rB f.imm7)
  | _ => .undefined

/-- The decoder: extract the fields, then select (40_engine.md R92). -/
def decode (w : Word) : Decoded := selectInstr (extractFields w)

/-- R-form, opcode 0 (30_encoding.md R64, R78). -/
def encR (rA rB rC : RegIdx) (func : Func) : Word :=
  0#3 ++ regBits rA ++ regBits rB ++ regBits rC ++ func

/-- I-form (30_encoding.md R64, R78). -/
def encI (op : BitVec 3) (rA rB : RegIdx) (imm7 : Imm7) : Word :=
  op ++ regBits rA ++ regBits rB ++ imm7

/-- J-form (30_encoding.md R64, R78). -/
def encJ (op : BitVec 3) (imm13 : Imm13) : Word := op ++ imm13

/-- The word of an instruction. A `jr` is written with rB = rC = 0 (30_encoding.md R76). -/
def encode : Instr → Word
  | .add rA rB rC => encR rA rB rC 0
  | .sub rA rB rC => encR rA rB rC 1
  | .or rA rB rC => encR rA rB rC 2
  | .and rA rB rC => encR rA rB rC 3
  | .slt rA rB rC func => encR rA rB rC func
  | .jr rA => encR rA 0 0 8
  | .addi rA rB imm7 => encI 1 rA rB imm7
  | .j imm13 => encJ 2 imm13
  | .jal imm13 => encJ 3 imm13
  | .lw rA rB imm7 => encI 4 rA rB imm7
  | .sw rA rB imm7 => encI 5 rA rB imm7
  | .jeq rA rB imm7 => encI 6 rA rB imm7
  | .slti rA rB imm7 => encI 7 rA rB imm7

/-- One row of the opcode map: a word `w` is the instruction when `w &&& mask = pattern` (30_encoding.md R79). -/
structure OpcodeRow where
  mnemonic : String
  mask : Word
  pattern : Word
  deriving DecidableEq, Repr

/-- The word falls under the row. -/
def OpcodeRow.fits (r : OpcodeRow) (w : Word) : Bool := w &&& r.mask == r.pattern

/-- The sixteen rows of 30_encoding.md R79 and spec/opcode_table.json. -/
def opcodeRows : List OpcodeRow := [
  ⟨"add", 0xE00F, 0x0000⟩,
  ⟨"sub", 0xE00F, 0x0001⟩,
  ⟨"or", 0xE00F, 0x0002⟩,
  ⟨"and", 0xE00F, 0x0003⟩,
  ⟨"slt", 0xE00C, 0x0004⟩,
  ⟨"slt", 0xE00F, 0x0009⟩,
  ⟨"slt", 0xE00E, 0x000A⟩,
  ⟨"slt", 0xE00C, 0x000C⟩,
  ⟨"jr", 0xE00F, 0x0008⟩,
  ⟨"addi", 0xE000, 0x2000⟩,
  ⟨"j", 0xE000, 0x4000⟩,
  ⟨"jal", 0xE000, 0x6000⟩,
  ⟨"lw", 0xE000, 0x8000⟩,
  ⟨"sw", 0xE000, 0xA000⟩,
  ⟨"jeq", 0xE000, 0xC000⟩,
  ⟨"slti", 0xE000, 0xE000⟩]

/-- The word that an opcode-table word of `nbits` bits stands for: the bits above `nbits` are 0, and an instruction
is one 16-bit cell (30_encoding.md R60). -/
def tableWord (nbits w : Nat) : Word := BitVec.ofNat 16 (w % 2 ^ nbits)

/-- The instruction the decoder reads from an opcode-table word (log entry 11). -/
def decodeTableWord (nbits w : Nat) : Option Instr :=
  match decode (tableWord nbits w) with
  | .instr i => some i
  | .undefined => none

end Sys2Proof
end

