-- ==== Sys2Proof/Config.lean ====
section
/-! DEFINITION. The parameters of 00_scope.md R6. The spec leaves none of them open and no value of the machine
free, so there is no opaque constant here. -/

namespace Sys2Proof

/-- Memory size `MEMSIZE` in 16-bit cells (R6), the bound on an image's length (70_reset_and_hazards.md R192). -/
abbrev Config.memSize : Nat := 8192

/-- The reset PC (R6). -/
abbrev Config.resetPc : Int := 0

/-- What a cell outside the loaded image holds after `Load` (10_state.md R37): what an unlisted cell reads as. -/
abbrev Config.unlistedCell : Word := 0

/-- The register `jal` writes (43_control_transfer.md R141). -/
abbrev Config.linkReg : RegIdx := 7

end Sys2Proof
end

