-- ==== Sys2Proof/Machine/State.lean ====
section
/-! DEFINITION. The state of the block (10_state.md R20), its value after reset (R37, R190) and the reasons a step
can stop. -/

namespace Sys2Proof.Machine

/-- The stored general registers. `$0` is hard-wired to zero and has no storage (10_state.md R22); the other seven
hold 16 bits each (R21). -/
structure RegFile where
  x1 : Word
  x2 : Word
  x3 : Word
  x4 : Word
  x5 : Word
  x6 : Word
  x7 : Word
  deriving DecidableEq, Repr

/-- One listed memory cell: its address and its 16-bit value. The unit of addressing is the 16-bit cell, and no
address names a byte (20_memory.md R41, R46; log entry 1). -/
abbrev Cell := Nat × Word

/-- The 8192 cells of 20_memory.md R40 as a sparse list; an address that is not listed reads as
`Config.unlistedCell`. -/
abbrev Memory := List Cell

/-- The canonical form: addresses strictly rising, each in [0, 8191], and no entry equal to what an unlisted
address reads as. -/
abbrev Memory.wf (m : Memory) : Prop :=
  m.Pairwise (fun c d => c.1 < d.1) ∧ ∀ c ∈ m, c.1 < 8192 ∧ c.2 ≠ Config.unlistedCell

/-- The architectural state `(pc, x[0..7], mem[0..8191], halted)` of 10_state.md R20. The PC is an unbounded
integer (R27); `halted` records that the halt check has fired (R35). -/
structure State where
  pc : Int
  regs : RegFile
  mem : Memory
  halted : Bool
  deriving DecidableEq, Repr

/-- Why the machine stops with a fault: never. "No runtime errors exist by design" (60_exceptions.md R170), so
there is no constructor, nobody raises one, and nothing is unsafe in it (log entry 6). -/
inductive Fault where
  deriving DecidableEq, Repr

/-- Why the model refuses. -/
inductive Refusal where
  /-- An instruction without a meaning in this model, by its mnemonic. No arm of `exec` raises it: every instruction
  has its meaning. It would be safe. -/
  | notModelled (mnemonic : String)
  /-- Raised by `load` alone, never by a step: an image of more than 8192 words, which the host must not send and a
  model may refuse (70_reset_and_hazards.md R192). Safe. -/
  | imageTooLong
  deriving DecidableEq, Repr

/-- The state after reset: every register 0, pc 0, not halted, every cell 0 (10_state.md R37, 70_reset_and_hazards.md
R190 with the empty image). -/
def State.reset : State where
  pc := Config.resetPc
  regs := ⟨0, 0, 0, 0, 0, 0, 0⟩
  mem := []
  halted := false

end Sys2Proof.Machine
end

