-- ==== Sys2Proof/Machine/Ops.lean ====
section
/-! DEFINITION. The primitives of 00_scope.md R11 that every instruction rule uses: registers, memory, the PC, halt
and write-back. The machine has no exceptions (60_exceptions.md R170, R174, R175), so there is no operation that
takes one and none that returns from one. -/

namespace Sys2Proof.Machine

/-- `wrap(x) = x mod 8192`, floor modulo (00_scope.md R9, 20_memory.md R42). -/
def wrap (x : Int) : Addr := ⟨(x % 8192).toNat, by omega⟩

/-- `mask16(x) = x mod 65536`, floor modulo (00_scope.md R9). -/
def mask16 (x : Int) : Word := BitVec.ofNat 16 (x % 65536).toNat

/-- The value of a register or cell as a mathematical integer (00_scope.md R9). -/
def uint (v : Word) : Int := v.toNat

/-! ### Registers -/

/-- `x[i]`: `$0` reads 0 in every state (10_state.md R22). -/
def State.readReg (s : State) (i : RegIdx) : Word :=
  match i.val with
  | 1 => s.regs.x1
  | 2 => s.regs.x2
  | 3 => s.regs.x3
  | 4 => s.regs.x4
  | 5 => s.regs.x5
  | 6 => s.regs.x6
  | 7 => s.regs.x7
  | _ => 0

/-- `x[i] <- v`: a write to `$0` is silently discarded (10_state.md R23). -/
def State.writeReg (s : State) (i : RegIdx) (v : Word) : State :=
  match i.val with
  | 1 => { s with regs := { s.regs with x1 := v } }
  | 2 => { s with regs := { s.regs with x2 := v } }
  | 3 => { s with regs := { s.regs with x3 := v } }
  | 4 => { s with regs := { s.regs with x4 := v } }
  | 5 => { s with regs := { s.regs with x5 := v } }
  | 6 => { s with regs := { s.regs with x6 := v } }
  | 7 => { s with regs := { s.regs with x7 := v } }
  | _ => s

/-! ### Memory -/

/-- The value of cell `a` (20_memory.md R43); an unlisted cell reads as `Config.unlistedCell`. -/
def Memory.read : Memory → Addr → Word
  | [], _ => Config.unlistedCell
  | (b, v) :: m, a => if b = a.val then v else Memory.read m a

/-- The memory without an entry for cell `a`. -/
def Memory.erase (m : Memory) (a : Addr) : Memory := m.filter (fun c => c.1 != a.val)

/-- Adds an entry for cell `a` before the first entry of a higher address. -/
def Memory.insert : Memory → Addr → Word → Memory
  | [], a, v => [(a.val, v)]
  | (b, u) :: m, a, v => if a.val < b then (a.val, v) :: (b, u) :: m else (b, u) :: Memory.insert m a v

/-- Cell `a` becomes `v` (20_memory.md R44); a cell that holds `Config.unlistedCell` is not listed. -/
def Memory.write (m : Memory) (a : Addr) (v : Word) : Memory :=
  if v = Config.unlistedCell then m.erase a else (m.erase a).insert a v

/-- `MemRead(a, 1)` (00_scope.md R11, 20_memory.md R43). -/
def State.memRead (s : State) (a : Addr) : Word := s.mem.read a

/-- `MemWrite(a, 1, v)` (00_scope.md R11, 20_memory.md R44). -/
def State.memWrite (s : State) (a : Addr) (v : Word) : State := { s with mem := s.mem.write a v }

/-! ### Program counter, halt, fetch and write-back -/

/-- `pc <- t`, without reduction (10_state.md R27). -/
def State.setPc (s : State) (t : Int) : State := { s with pc := t }

/-- `pc <- pc + 1`, without reduction (10_state.md R28). -/
def State.advance (s : State) : State := s.setPc (s.pc + 1)

/-- `halt`: the step sets `halted` and changes nothing else (40_engine.md R93). -/
def State.halt (s : State) : State := { s with halted := true }

/-- The halt check of a `j`: integer equality of imm13 and the unreduced pc (40_engine.md R93). -/
def State.haltCheck (s : State) (imm13 : Imm13) : Bool := (imm13.toNat : Int) == s.pc

/-- The fetched word `MemRead(wrap(pc), 1)` (40_engine.md R91). -/
def State.fetch (s : State) : Word := s.memRead (wrap s.pc)

/-- The shape of every instruction that ends in one register write and pc + 1 (40_engine.md R97, R98). -/
def writeBack (s : State) (rd : RegIdx) (v : Word) : Host.Outcome State Fault Refusal :=
  .next (s.writeReg rd v).advance

/-- The undefined-instruction fallback: a no-op that only advances the PC (40_engine.md R99). -/
def execUndefined (s : State) : Host.Outcome State Fault Refusal := .next s.advance

end Sys2Proof.Machine
end

