-- ==== Sys2Proof/Machine/Flags.lean ====
section
/-! DEFINITION. The machine has no flags (10_state.md R32): a comparison writes its result to a register or decides
a branch at once. These are the two comparisons. -/

namespace Sys2Proof.Machine

/-- 1 where `a < b` as unsigned 16-bit values, else 0 (41_register_ops.md R115, 42_immediate_ops.md R131). -/
def setLess (a b : Word) : Word := if a.toNat < b.toNat then 1 else 0

/-- Equality of two 16-bit values (43_control_transfer.md R142). -/
def sameWord (a b : Word) : Bool := a == b

end Sys2Proof.Machine
end

