-- ==== Sys2Proof/Machine/Operands.lean ====
section
/-! DEFINITION. The immediate conversions (30_encoding.md R65 to R69) and the one addressing mode
(44_load_store.md R160). -/

namespace Sys2Proof.Machine

/-- `toSigned(v, w)`: `v` read as a w-bit two's-complement number (00_scope.md R10). -/
def toSigned (v w : Nat) : Int := if v < 2 ^ (w - 1) then v else (v : Int) - 2 ^ w

/-- `signed7(v)`: v for v ≤ 63, else (v & 63) − 64 (30_encoding.md R67). -/
def signed7 (v : Imm7) : Int :=
  if v.toNat ≤ 63 then v.toNat else ((v &&& 63).toNat : Int) - 64

/-- `sext_16(v)`: v for v ≤ 63, else v | 0xFF80 (30_encoding.md R68). -/
def sext16 (v : Imm7) : Word :=
  if v.toNat ≤ 63 then v.setWidth 16 else v.setWidth 16 ||| 0xFF80

/-- `signedRel(x)`: x for x ≤ 32767, else x − 65536 (30_encoding.md R69). -/
def signedRel (x : Word) : Int :=
  if x.toNat ≤ 32767 then x.toNat else (x.toNat : Int) - 65536

/-- The branch offset of `jeq`, the composition kept as the source has it (30_encoding.md R69). -/
def branchOffset (imm7 : Imm7) : Int := signedRel (sext16 imm7)

/-- The jump target of `j` and `jal`: imm13, zero-extended (30_encoding.md R65). -/
def jumpTarget (imm13 : Imm13) : Int := imm13.toNat

/-- `ea = wrap(x[rA] + signed7(imm7))` (44_load_store.md R160). -/
def State.effAddr (s : State) (rA : RegIdx) (imm7 : Imm7) : Addr :=
  wrap (uint (s.readReg rA) + signed7 imm7)

end Sys2Proof.Machine
end

