-- ==== Sys2Proof/Machine/ControlTransfer.lean ====
section
/-! DEFINITION. j with the halt check, jal and jeq (43_control_transfer.md R140 to R142, 40_engine.md R93). -/

namespace Sys2Proof.Machine

/-- `j t`: halts where the halt check fires, else jumps (40_engine.md R93, 43_control_transfer.md R140). The check
stands here because only opcode 2 is tested by it (40_engine.md R94; log entry 4). -/
def execJ (imm13 : Imm13) (s : State) : Host.Outcome State Fault Refusal :=
  .next (if s.haltCheck imm13 then s.halt else s.setPc (jumpTarget imm13))

/-- `jal t`: `$7` takes mask16(pc + 1), then the PC takes the target (43_control_transfer.md R141). -/
def execJal (imm13 : Imm13) (s : State) : Host.Outcome State Fault Refusal :=
  .next ((s.writeReg Config.linkReg (mask16 (s.pc + 1))).setPc (jumpTarget imm13))

/-- `jeq $rA, $rB, off` (43_control_transfer.md R142). -/
def execJeq (rA rB : RegIdx) (imm7 : Imm7) (s : State) : Host.Outcome State Fault Refusal :=
  .next (if sameWord (s.readReg rA) (s.readReg rB) then s.setPc (s.pc + 1 + branchOffset imm7) else s.advance)

end Sys2Proof.Machine
end

