-- ==== Sys2Proof/Machine/ImmediateOps.lean ====
section
/-! DEFINITION. addi and slti (42_immediate_ops.md R130, R131). -/

namespace Sys2Proof.Machine

/-- `addi $rB, $rA, imm` (42_immediate_ops.md R130). -/
def execAddi (rA rB : RegIdx) (imm7 : Imm7) (s : State) : Host.Outcome State Fault Refusal :=
  writeBack s rB (mask16 (uint (s.readReg rA) + signed7 imm7))

/-- `slti $rB, $rA, imm`: unsigned, against the sign-extended immediate (42_immediate_ops.md R131). -/
def execSlti (rA rB : RegIdx) (imm7 : Imm7) (s : State) : Host.Outcome State Fault Refusal :=
  writeBack s rB (setLess (s.readReg rA) (sext16 imm7))

end Sys2Proof.Machine
end

