-- ==== Sys2Proof/Machine/LoadStore.lean ====
section
/-! DEFINITION. lw and sw (44_load_store.md R160 to R162). -/

namespace Sys2Proof.Machine

/-- `lw $rB, imm($rA)` (44_load_store.md R161). -/
def execLw (rA rB : RegIdx) (imm7 : Imm7) (s : State) : Host.Outcome State Fault Refusal :=
  writeBack s rB (s.memRead (s.effAddr rA imm7))

/-- `sw $rB, imm($rA)` (44_load_store.md R162). -/
def execSw (rA rB : RegIdx) (imm7 : Imm7) (s : State) : Host.Outcome State Fault Refusal :=
  .next (s.memWrite (s.effAddr rA imm7) (s.readReg rB)).advance

end Sys2Proof.Machine
end

