-- ==== Sys2Proof/Machine/RegisterOps.lean ====
section
/-! DEFINITION. The opcode-0 instructions (41_register_ops.md R110 to R116). -/

namespace Sys2Proof.Machine

/-- `add $rC, $rA, $rB` (41_register_ops.md R111). -/
def execAdd (rA rB rC : RegIdx) (s : State) : Host.Outcome State Fault Refusal :=
  writeBack s rC (mask16 (uint (s.readReg rA) + uint (s.readReg rB)))

/-- `sub $rC, $rA, $rB` (41_register_ops.md R112). -/
def execSub (rA rB rC : RegIdx) (s : State) : Host.Outcome State Fault Refusal :=
  writeBack s rC (mask16 (uint (s.readReg rA) - uint (s.readReg rB)))

/-- `or $rC, $rA, $rB` (41_register_ops.md R113). -/
def execOr (rA rB rC : RegIdx) (s : State) : Host.Outcome State Fault Refusal :=
  writeBack s rC (s.readReg rA ||| s.readReg rB)

/-- `and $rC, $rA, $rB` (41_register_ops.md R114). -/
def execAnd (rA rB rC : RegIdx) (s : State) : Host.Outcome State Fault Refusal :=
  writeBack s rC (s.readReg rA &&& s.readReg rB)

/-- `slt $rC, $rA, $rB`; all eleven func values behave identically (41_register_ops.md R115). -/
def execSlt (rA rB rC : RegIdx) (_func : Func) (s : State) : Host.Outcome State Fault Refusal :=
  writeBack s rC (setLess (s.readReg rA) (s.readReg rB))

/-- `jr $rA`: the PC becomes the register's value, unreduced (41_register_ops.md R116). -/
def execJr (rA : RegIdx) (s : State) : Host.Outcome State Fault Refusal :=
  .next (s.setPc (uint (s.readReg rA)))

end Sys2Proof.Machine
end

