-- ==== Sys2Proof/Machine/Dispatch.lean ====
section
/-! DEFINITION. The dispatch of 40_engine.md R95: one arm per instruction. -/

namespace Sys2Proof.Machine

def exec (i : Instr) (s : State) : Host.Outcome State Fault Refusal :=
  match i with
  | .add rA rB rC => Sys2Proof.Machine.execAdd rA rB rC s
  | .sub rA rB rC => Sys2Proof.Machine.execSub rA rB rC s
  | .or rA rB rC => Sys2Proof.Machine.execOr rA rB rC s
  | .and rA rB rC => Sys2Proof.Machine.execAnd rA rB rC s
  | .slt rA rB rC func => Sys2Proof.Machine.execSlt rA rB rC func s
  | .jr rA => Sys2Proof.Machine.execJr rA s
  | .addi rA rB imm7 => Sys2Proof.Machine.execAddi rA rB imm7 s
  | .j imm13 => Sys2Proof.Machine.execJ imm13 s
  | .jal imm13 => Sys2Proof.Machine.execJal imm13 s
  | .lw rA rB imm7 => Sys2Proof.Machine.execLw rA rB imm7 s
  | .sw rA rB imm7 => Sys2Proof.Machine.execSw rA rB imm7 s
  | .jeq rA rB imm7 => Sys2Proof.Machine.execJeq rA rB imm7 s
  | .slti rA rB imm7 => Sys2Proof.Machine.execSlti rA rB imm7 s

end Sys2Proof.Machine
end

