-- ==== Sys2Proof/Machine/Step.lean ====
section
/-! DEFINITION. One step of the engine (40_engine.md R90 to R102). -/

namespace Sys2Proof.Machine

/-- `Step()` of 40_engine.md R102: a halted state is left as it is (R90); otherwise fetch, decode and dispatch. The
halt check is the first thing the meaning of `j` does (R93; log entry 4). -/
def step (s : State) : Host.Outcome State Fault Refusal :=
  if s.halted then .next s
  else
    match decode s.fetch with
    | .instr i => exec i s
    | .undefined => execUndefined s

/-- The state whose next step fetches and runs the opcode-table word: the word stands in the cell that is fetched
next, and the block is not halted, since a halted block fetches nothing (40_engine.md R90, R91; log entry 9). -/
def State.withFetchWord (s : State) (nbits w : Nat) : State :=
  { s.memWrite (wrap s.pc) (tableWord nbits w) with halted := false }

end Sys2Proof.Machine
end

