-- ==== Sys2Proof/Machine/Interface.lean ====
section
/-! DEFINITION. The block's interface (00_scope.md R7): Load, Step and the four observations. -/

namespace Sys2Proof.Machine

/-- The listed cells of an image placed from cell `a` on: `mem[a + i] <- image[i]`, a cell that holds
`Config.unlistedCell` left unlisted (70_reset_and_hazards.md R190). -/
def imageCells : Nat → List Word → Memory
  | _, [] => []
  | a, v :: vs => if v = Config.unlistedCell then imageCells (a + 1) vs else (a, v) :: imageCells (a + 1) vs

/-- `Load(image)`: the full reset with the image in cells 0 to n − 1 (70_reset_and_hazards.md R190, 10_state.md
R37). An image of more than 8192 words is refused, never wrapped into low cells (R192; log entry 8). -/
def load (image : List Word) : Host.Outcome State Fault Refusal :=
  if image.length ≤ Config.memSize then .next { State.reset with mem := imageCells 0 image }
  else .refused .imageTooLong

/-- The host's two operations that act on the block; it has no other (00_scope.md R7, 70_reset_and_hazards.md R197). -/
inductive HostOp where
  | load (image : List Word)
  | step
  deriving DecidableEq, Repr

/-- What a host operation does, at any step boundary: `Load` is a full reset whatever the state was (decision D11). -/
def hostOp (op : HostOp) (s : State) : Host.Outcome State Fault Refusal :=
  match op with
  | .load image => load image
  | .step => step s

/-- Observation `Halted` (R7). -/
def State.obsHalted (s : State) : Bool := s.halted

/-- Observation `PC` (R7), the unreduced program counter. -/
def State.obsPc (s : State) : Int := s.pc

/-- Observation `Reg(i)` (R7). -/
def State.obsReg (s : State) (i : RegIdx) : Word := s.readReg i

/-- Observation `Mem(a)` (R7, 20_memory.md R57). -/
def State.obsMem (s : State) (a : Addr) : Word := s.memRead a

end Sys2Proof.Machine
end

