-- ==== Sys2Proof/Machine/Listing.lean ====
section
/-! DEFINITION. The listing `Step()` of 40_engine.md R102 written as it stands there, over mathematical integers and
independently of the decoder, the dispatch and the meanings; a statement says that `step` refines it. -/

namespace Sys2Proof.Machine

/-- The tuple `(pc, x[0..7], mem[0..8191], halted)` of 10_state.md R20 as the listing's variables. -/
structure Vars where
  pc : Int
  x : RegIdx → Nat
  mem : Addr → Nat
  halted : Bool

/-- The variables a state of the model stands for. -/
def State.vars (s : State) : Vars where
  pc := s.pc
  x := fun i => (s.readReg i).toNat
  mem := fun a => (s.memRead a).toNat
  halted := s.halted

/-- `w[hi:lo]` for a number `w` (00_scope.md R8). -/
def bitsOf (w hi lo : Nat) : Nat := w / 2 ^ lo % 2 ^ (hi - lo + 1)

/-- A 3-bit field as a register index. -/
def regAt (w lo : Nat) : RegIdx := ⟨w / 2 ^ lo % 8, Nat.mod_lt _ (by decide)⟩

/-- `signed(imm7)` on numbers (30_encoding.md R67). -/
def numSigned7 (v : Nat) : Int := if v ≤ 63 then v else (v : Int) - 128

/-- `sext_16` on numbers (30_encoding.md R68). -/
def numSext16 (v : Nat) : Nat := if v ≤ 63 then v else v ||| 0xFF80

/-- `signedRel` on numbers (30_encoding.md R69). -/
def numSignedRel (v : Nat) : Int := if v ≤ 32767 then v else (v : Int) - 65536

/-- `mask16` as a number (00_scope.md R9). -/
def numMask16 (x : Int) : Nat := (x % 65536).toNat

/-- `x[i] <- v` (10_state.md R23). -/
def Vars.setReg (m : Vars) (i : RegIdx) (v : Nat) : Vars :=
  if i = 0 then m else { m with x := fun k => if k = i then v else m.x k }

/-- `MemWrite(a, 1, v)` (20_memory.md R44). -/
def Vars.setMem (m : Vars) (a : Addr) (v : Nat) : Vars :=
  { m with mem := fun b => if b = a then v else m.mem b }

/-- `pc <- t`. -/
def Vars.goto (m : Vars) (t : Int) : Vars := { m with pc := t }

/-- The halt check and the `case` of the listing, on the fields of the fetched word. -/
def Vars.dispatch (m : Vars) (op : Nat) (rA rB rC : RegIdx) (func imm7 imm13 : Nat) : Vars :=
  if op = 2 ∧ (imm13 : Int) = m.pc then { m with halted := true }
  else if op = 0 then
    if func = 0 then (m.setReg rC (numMask16 ((m.x rA : Int) + m.x rB))).goto (m.pc + 1)
    else if func = 1 then (m.setReg rC (numMask16 ((m.x rA : Int) - m.x rB))).goto (m.pc + 1)
    else if func = 2 then (m.setReg rC (m.x rA ||| m.x rB)).goto (m.pc + 1)
    else if func = 3 then (m.setReg rC (m.x rA &&& m.x rB)).goto (m.pc + 1)
    else if func = 8 then m.goto (m.x rA)
    else (m.setReg rC (if m.x rA < m.x rB then 1 else 0)).goto (m.pc + 1)
  else if op = 1 then (m.setReg rB (numMask16 (m.x rA + numSigned7 imm7))).goto (m.pc + 1)
  else if op = 2 then m.goto imm13
  else if op = 3 then (m.setReg 7 (numMask16 (m.pc + 1))).goto imm13
  else if op = 4 then (m.setReg rB (m.mem (wrap (m.x rA + numSigned7 imm7)))).goto (m.pc + 1)
  else if op = 5 then (m.setMem (wrap (m.x rA + numSigned7 imm7)) (m.x rB)).goto (m.pc + 1)
  else if op = 6 then
    if m.x rA = m.x rB then m.goto (m.pc + 1 + numSignedRel (numSext16 imm7)) else m.goto (m.pc + 1)
  else (m.setReg rB (if m.x rA < numSext16 imm7 then 1 else 0)).goto (m.pc + 1)

/-- The listing of 40_engine.md R102. -/
def Vars.step (m : Vars) : Vars :=
  if m.halted then m
  else
    let w := m.mem (wrap m.pc)
    m.dispatch (bitsOf w 15 13) (regAt w 10) (regAt w 7) (regAt w 4) (bitsOf w 3 0) (bitsOf w 6 0) (bitsOf w 12 0)

end Sys2Proof.Machine
end

