-- ==== Sys2Proof/Safety.lean ====
section
/-! DEFINITION. The terms the statements use: transitions and runs, the invariant, and the tables of 10_state.md R25
and R28. -/

namespace Sys2Proof.Machine

/-! ### Runs -/

/-- One transition of the machine. A halted state is final: it has none (40_engine.md R90, decision D4), though a
`Step` issued there is ignored and leaves the state as it is. -/
def Transition (s t : State) : Prop := s.halted = false ∧ step s = .next t

/-- `n` transitions lead from `s` to `t`. -/
inductive Run : Nat → State → State → Prop where
  | start (s : State) : Run 0 s s
  | more (n : Nat) (s t u : State) : Transition s t → Run n t u → Run (n + 1) s u

/-- The run from `s` ends in `t` after `n` steps: the first halted state (40_engine.md R101, R103). -/
def EndsIn (n : Nat) (s t : State) : Prop := Run n s t ∧ t.halted = true

/-! ### The invariant -/

/-- A halted state stands on the self-jump that halted it: the cell at pc holds `j pc` (40_engine.md R93, R103). -/
def State.haltedOnSelfJump (s : State) : Prop :=
  s.halted = true → ∃ imm13 : Imm13, decode s.fetch = .instr (.j imm13) ∧ s.pc = imm13.toNat

/-- The invariant of the machine: memory in canonical form, and a halted state on its self-jump. -/
def State.Inv (s : State) : Prop := s.mem.wf ∧ s.haltedOnSelfJump

/-! ### What an instruction reads and writes -/

/-- The register an instruction writes (10_state.md R25). -/
def destReg : Instr → Option RegIdx
  | .add _ _ rC => some rC
  | .sub _ _ rC => some rC
  | .or _ _ rC => some rC
  | .and _ _ rC => some rC
  | .slt _ _ rC _ => some rC
  | .jr _ => none
  | .addi _ rB _ => some rB
  | .j _ => none
  | .jal _ => some 7
  | .lw _ rB _ => some rB
  | .sw _ _ _ => none
  | .jeq _ _ _ => none
  | .slti _ rB _ => some rB

/-- The registers an instruction reads (10_state.md R25). -/
def sourceRegs : Instr → List RegIdx
  | .add rA rB _ => [rA, rB]
  | .sub rA rB _ => [rA, rB]
  | .or rA rB _ => [rA, rB]
  | .and rA rB _ => [rA, rB]
  | .slt rA rB _ _ => [rA, rB]
  | .jr rA => [rA]
  | .addi rA _ _ => [rA]
  | .j _ => []
  | .jal _ => []
  | .lw rA _ _ => [rA]
  | .sw rA rB _ => [rA, rB]
  | .jeq rA rB _ => [rA, rB]
  | .slti rA _ _ => [rA]

/-- The cell an instruction stores to (44_load_store.md R162). -/
def storeCell (s : State) : Instr → Option Addr
  | .sw rA _ imm7 => some (s.effAddr rA imm7)
  | .add _ _ _ => none
  | .sub _ _ _ => none
  | .or _ _ _ => none
  | .and _ _ _ => none
  | .slt _ _ _ _ => none
  | .jr _ => none
  | .addi _ _ _ => none
  | .j _ => none
  | .jal _ => none
  | .lw _ _ _ => none
  | .jeq _ _ _ => none
  | .slti _ _ _ => none

/-- The cell an instruction loads from (44_load_store.md R161). -/
def loadCell (s : State) : Instr → Option Addr
  | .lw rA _ imm7 => some (s.effAddr rA imm7)
  | .add _ _ _ => none
  | .sub _ _ _ => none
  | .or _ _ _ => none
  | .and _ _ _ => none
  | .slt _ _ _ _ => none
  | .jr _ => none
  | .addi _ _ _ => none
  | .j _ => none
  | .jal _ => none
  | .sw _ _ _ => none
  | .jeq _ _ _ => none
  | .slti _ _ _ => none

/-- The new pc of 10_state.md R28. -/
def nextPc (s : State) : Instr → Int
  | .jr rA => (s.readReg rA).toNat
  | .j imm13 => imm13.toNat
  | .jal imm13 => imm13.toNat
  | .jeq rA rB imm7 => if s.readReg rA = s.readReg rB then s.pc + 1 + signed7 imm7 else s.pc + 1
  | .add _ _ _ => s.pc + 1
  | .sub _ _ _ => s.pc + 1
  | .or _ _ _ => s.pc + 1
  | .and _ _ _ => s.pc + 1
  | .slt _ _ _ _ => s.pc + 1
  | .addi _ _ _ => s.pc + 1
  | .lw _ _ _ => s.pc + 1
  | .sw _ _ _ => s.pc + 1
  | .slti _ _ _ => s.pc + 1

/-! ### Shapes the statements share -/

/-- Every word under the mask and pattern decodes to the instruction built from its fields. -/
def DecodesUnder (mask pattern : Word) (k : Fields → Instr) : Prop :=
  ∀ w : Word, w &&& mask = pattern → decode w = .instr (k (extractFields w))

/-- Every cell reads as before. -/
def SameCells (s t : State) : Prop := ∀ a : Addr, t.memRead a = s.memRead a

/-- Every register reads as before. -/
def SameRegs (s t : State) : Prop := ∀ r : RegIdx, t.readReg r = s.readReg r

/-- `t` is `s` after `x[rd] <- v; pc <- pc + 1` and nothing else: `$rd` holds `v` unless it is `$0`, every other
register, every cell and `halted` are as before. -/
def WritesReg (s t : State) (rd : RegIdx) (v : Nat) : Prop :=
  (rd ≠ 0 → (t.readReg rd).toNat = v) ∧ (∀ r, r = 0 ∨ r ≠ rd → t.readReg r = s.readReg r) ∧
    t.pc = s.pc + 1 ∧ SameCells s t ∧ t.halted = s.halted

/-- The instruction completes in `s` and leaves `v` in `$r`. -/
def Leaves (i : Instr) (s : State) (r : RegIdx) (v : Nat) : Prop :=
  ∃ t, exec i s = .next t ∧ (t.readReg r).toNat = v

/-- `t` is `s` with its pc set to `target` and nothing else changed. -/
def OnlyJumps (s t : State) (target : Int) : Prop :=
  t.pc = target ∧ SameRegs s t ∧ SameCells s t ∧ t.halted = s.halted

end Sys2Proof.Machine
end

