-- ==== Sys2Proof/Certificates/Slice0/Obligations.lean ====
section
/-! DEFINITION. The statements for the provers, each after the rules of spec/ its docstring names. -/

open Sys2Proof Sys2Proof.Machine

/-! ### The instructions: encoding, result, frame and completion -/

/-- 41_register_ops.md R111. Every word under mask 0xE00F, match 0x0000 is this `add`; in every state it completes,
writes the sum mod 65536 to `$rC` (nothing where rC = 0), advances pc by 1 and changes nothing else. -/
def Obligations.AddWritesTheWrappedSum : Prop :=
  DecodesUnder 0xE00F 0x0000 (fun f => .add f.rA f.rB f.rC) ∧
  ∀ (rA rB rC : RegIdx) (s : State), ∃ t, exec (.add rA rB rC) s = .next t ∧
    WritesReg s t rC (((s.readReg rA).toNat + (s.readReg rB).toNat) % 65536)

/-- 41_register_ops.md R112. The difference mod 65536, non-negative representative. -/
def Obligations.SubWritesTheWrappedDifference : Prop :=
  DecodesUnder 0xE00F 0x0001 (fun f => .sub f.rA f.rB f.rC) ∧
  ∀ (rA rB rC : RegIdx) (s : State), ∃ t, exec (.sub rA rB rC) s = .next t ∧
    WritesReg s t rC ((((s.readReg rA).toNat : Int) - ((s.readReg rB).toNat : Int)) % 65536).toNat

/-- 41_register_ops.md R113. -/
def Obligations.OrWritesTheBitwiseOr : Prop :=
  DecodesUnder 0xE00F 0x0002 (fun f => .or f.rA f.rB f.rC) ∧
  ∀ (rA rB rC : RegIdx) (s : State), ∃ t, exec (.or rA rB rC) s = .next t ∧
    WritesReg s t rC ((s.readReg rA).toNat ||| (s.readReg rB).toNat)

/-- 41_register_ops.md R114. -/
def Obligations.AndWritesTheBitwiseAnd : Prop :=
  DecodesUnder 0xE00F 0x0003 (fun f => .and f.rA f.rB f.rC) ∧
  ∀ (rA rB rC : RegIdx) (s : State), ∃ t, exec (.and rA rB rC) s = .next t ∧
    WritesReg s t rC ((s.readReg rA).toNat &&& (s.readReg rB).toNat)

/-- 41_register_ops.md R115. The four patterns of `slt`; for each of the eleven func values, 1 where the first
operand is below the second as unsigned numbers, else 0. The statement also covers the ill-formed `slt` whose func is
0, 1, 2, 3 or 8, which no word gives; that `exec` runs it as an `slt` is the model's choice (log entry 10), no rule
of the spec. -/
def Obligations.SltWritesTheUnsignedComparison : Prop :=
  DecodesUnder 0xE00C 0x0004 (fun f => .slt f.rA f.rB f.rC f.func) ∧
  DecodesUnder 0xE00F 0x0009 (fun f => .slt f.rA f.rB f.rC f.func) ∧
  DecodesUnder 0xE00E 0x000A (fun f => .slt f.rA f.rB f.rC f.func) ∧
  DecodesUnder 0xE00C 0x000C (fun f => .slt f.rA f.rB f.rC f.func) ∧
  ∀ (rA rB rC : RegIdx) (func : Func) (s : State), ∃ t, exec (.slt rA rB rC func) s = .next t ∧
    WritesReg s t rC (if (s.readReg rA).toNat < (s.readReg rB).toNat then 1 else 0)

/-- 41_register_ops.md R116. Bits 9–4 play no part; pc takes the register's value, unreduced, and the next fetch
reads the cell of that value mod 8192. -/
def Obligations.JrSetsThePcToTheRegister : Prop :=
  DecodesUnder 0xE00F 0x0008 (fun f => .jr f.rA) ∧
  ∀ (rA : RegIdx) (s : State), ∃ t, exec (.jr rA) s = .next t ∧ OnlyJumps s t (s.readReg rA).toNat ∧
    ∀ a : Addr, a.val = (s.readReg rA).toNat % 8192 → t.fetch = s.memRead a

/-- 42_immediate_ops.md R130. The spec's equivalent form with sext_16 is in `ImmediateConversionsAgree`. -/
def Obligations.AddiWritesTheWrappedSum : Prop :=
  DecodesUnder 0xE000 0x2000 (fun f => .addi f.rA f.rB f.imm7) ∧
  ∀ (rA rB : RegIdx) (imm7 : Imm7) (s : State), ∃ t, exec (.addi rA rB imm7) s = .next t ∧
    WritesReg s t rB ((((s.readReg rA).toNat : Int) + signed7 imm7) % 65536).toNat

/-- 42_immediate_ops.md R131. Unsigned, against the sign-extended immediate. -/
def Obligations.SltiWritesTheUnsignedComparison : Prop :=
  DecodesUnder 0xE000 0xE000 (fun f => .slti f.rA f.rB f.imm7) ∧
  ∀ (rA rB : RegIdx) (imm7 : Imm7) (s : State), ∃ t, exec (.slti rA rB imm7) s = .next t ∧
    WritesReg s t rB (if (s.readReg rA).toNat < (sext16 imm7).toNat then 1 else 0)

/-- 43_control_transfer.md R140 where imm13 ≠ pc. Where imm13 = pc the halt is 40_engine.md R93's; that `exec` of `j`
is what sets `halted` there is the model's choice, the halt check standing in the meaning of `j` (log entry 4). -/
def Obligations.JJumpsOrHalts : Prop :=
  DecodesUnder 0xE000 0x4000 (fun f => .j f.imm13) ∧
  ∀ (imm13 : Imm13) (s : State),
    ((imm13.toNat : Int) ≠ s.pc → ∃ t, exec (.j imm13) s = .next t ∧ OnlyJumps s t imm13.toNat) ∧
    ((imm13.toNat : Int) = s.pc → exec (.j imm13) s = .next { s with halted := true })

/-- 43_control_transfer.md, `jal`. `$7` takes pc + 1 exactly where that is a 16-bit value. Outside that range the
link mod 65536 is the spec's own decision D3 (92_eei_decisions.md; log entry 5), no rule of its source. `jal` never
halts, its own address as target included. -/
def Obligations.JalLinksAndJumps : Prop :=
  DecodesUnder 0xE000 0x6000 (fun f => .jal f.imm13) ∧
  ∀ (imm13 : Imm13) (s : State), ∃ t, exec (.jal imm13) s = .next t ∧
    (0 ≤ s.pc + 1 → s.pc + 1 ≤ 65535 → ((t.readReg 7).toNat : Int) = s.pc + 1) ∧
    ((t.readReg 7).toNat : Int) = (s.pc + 1) % 65536 ∧
    (∀ r, r ≠ 7 → t.readReg r = s.readReg r) ∧ t.pc = imm13.toNat ∧ SameCells s t ∧ t.halted = s.halted

/-- 43_control_transfer.md R142. Taken where the registers are equal; the target is not reduced. -/
def Obligations.JeqBranchesOnEquality : Prop :=
  DecodesUnder 0xE000 0xC000 (fun f => .jeq f.rA f.rB f.imm7) ∧
  ∀ (rA rB : RegIdx) (imm7 : Imm7) (s : State), ∃ t, exec (.jeq rA rB imm7) s = .next t ∧
    OnlyJumps s t (if s.readReg rA = s.readReg rB then s.pc + 1 + signedRel (sext16 imm7) else s.pc + 1)

/-- 44_load_store.md R161. `$rB` takes the whole cell at the effective address of the state before. -/
def Obligations.LwLoadsTheCell : Prop :=
  DecodesUnder 0xE000 0x8000 (fun f => .lw f.rA f.rB f.imm7) ∧
  ∀ (rA rB : RegIdx) (imm7 : Imm7) (s : State), ∃ t, exec (.lw rA rB imm7) s = .next t ∧
    WritesReg s t rB (s.memRead (wrap ((s.readReg rA).toNat + signed7 imm7))).toNat

/-- 44_load_store.md R162. The cell at the effective address takes all of `$rB`; every other cell, every register
and `halted` are as before. -/
def Obligations.SwStoresTheRegister : Prop :=
  DecodesUnder 0xE000 0xA000 (fun f => .sw f.rA f.rB f.imm7) ∧
  ∀ (rA rB : RegIdx) (imm7 : Imm7) (s : State), ∃ t, exec (.sw rA rB imm7) s = .next t ∧
    t.memRead (wrap ((s.readReg rA).toNat + signed7 imm7)) = s.readReg rB ∧
    (∀ a : Addr, a ≠ wrap ((s.readReg rA).toNat + signed7 imm7) → t.memRead a = s.memRead a) ∧
    t.pc = s.pc + 1 ∧ SameRegs s t ∧ t.halted = s.halted

/-! ### Registers and memory -/

/-- 10_state.md R22. -/
def Obligations.RegisterZeroReadsZero : Prop :=
  (∀ s : State, s.readReg 0 = 0) ∧ ∀ (i : Instr) (s : State), ∃ t, exec i s = .next t ∧ t.readReg 0 = 0

/-- 10_state.md R23. A write to `$0` changes no state; any other write changes that register alone. -/
def Obligations.RegisterWriteIsDiscardedAtZero : Prop :=
  ∀ (s : State) (v : Word), s.writeReg 0 v = s ∧
    ∀ r : RegIdx, r ≠ 0 → (s.writeReg r v).readReg r = v ∧ (∀ k, k ≠ r → (s.writeReg r v).readReg k = s.readReg k) ∧
      (s.writeReg r v).pc = s.pc ∧ SameCells s (s.writeReg r v) ∧ (s.writeReg r v).halted = s.halted

/-- 20_memory.md R44. A write sets one cell and changes nothing else, and the next access, fetch included, sees it. -/
def Obligations.MemoryWriteSetsOneCell : Prop :=
  ∀ (s : State) (a : Addr) (v : Word), (s.memWrite a v).memRead a = v ∧
    (∀ b, b ≠ a → (s.memWrite a v).memRead b = s.memRead b) ∧ SameRegs s (s.memWrite a v) ∧
    (s.memWrite a v).pc = s.pc ∧ (s.memWrite a v).halted = s.halted ∧
    (wrap s.pc = a → (s.memWrite a v).fetch = v)

/-- 20_memory.md R42. Floor modulo 8192, at all three consumers: fetch, lw and sw. -/
def Obligations.EveryAddressWraps : Prop :=
  (∀ x : Int, ((wrap x).val : Int) = x % 8192) ∧
  ∀ (s : State) (a : Addr),
    ((a.val : Int) = s.pc % 8192 → s.fetch = s.memRead a) ∧
    ∀ (rA rB : RegIdx) (imm7 : Imm7), (a.val : Int) = ((s.readReg rA).toNat + signed7 imm7) % 8192 →
      (∃ t, exec (.lw rA rB imm7) s = .next t ∧ (rB ≠ 0 → t.readReg rB = s.memRead a)) ∧
      ∃ t, exec (.sw rA rB imm7) s = .next t ∧ t.memRead a = s.readReg rB ∧ ∀ b, b ≠ a → t.memRead b = s.memRead b

/-- 44_load_store.md, the spec's own inference in R160: the effective address is the low 13 bits of the 16-bit sum
of the base and the sign-extended displacement. -/
def Obligations.EffectiveAddressIsTheLowBitsOfTheSum : Prop :=
  ∀ (s : State) (rA : RegIdx) (imm7 : Imm7),
    (s.effAddr rA imm7).val = (s.readReg rA + sext16 imm7).toNat % 8192

/-- 10_state.md, on R29: the stored pc is not reduced, the fetch address is; pc 8191 advances to 8192 and then
fetches cell 0, pc −1 fetches cell 8191, and pcs that agree mod 8192 fetch the same cell. -/
def Obligations.FetchWrapsThePc : Prop :=
  ∀ s : State,
    (s.pc = 8191 → s.advance.pc = 8192 ∧ s.advance.fetch = s.memRead 0) ∧
    (s.pc = -1 → s.fetch = s.memRead 8191) ∧
    ∀ k : Int, (s.setPc (s.pc + 8192 * k)).fetch = s.fetch

/-! ### Encoding -/

/-- 30_encoding.md R61. -/
def Obligations.FieldsStandAtTheirBits : Prop :=
  ∀ w : Word,
    (extractFields w).opcode.toNat = w.toNat / 2 ^ 13 ∧
    (extractFields w).rA.val = w.toNat / 2 ^ 10 % 8 ∧
    (extractFields w).rB.val = w.toNat / 2 ^ 7 % 8 ∧
    (extractFields w).rC.val = w.toNat / 2 ^ 4 % 8 ∧
    (extractFields w).imm13.toNat = w.toNat % 2 ^ 13 ∧
    (extractFields w).imm7.toNat = w.toNat % 2 ^ 7 ∧
    (extractFields w).func.toNat = w.toNat % 2 ^ 4

/-- 30_encoding.md R71 and R72: the opcode, and for opcode 0 the func, select the instruction. -/
def Obligations.OpcodeAndFuncSelectTheInstruction : Prop :=
  ∀ w : Word, let f := extractFields w
    (f.opcode = 0 →
      (f.func = 0 → decode w = .instr (.add f.rA f.rB f.rC)) ∧
      (f.func = 1 → decode w = .instr (.sub f.rA f.rB f.rC)) ∧
      (f.func = 2 → decode w = .instr (.or f.rA f.rB f.rC)) ∧
      (f.func = 3 → decode w = .instr (.and f.rA f.rB f.rC)) ∧
      (f.func = 8 → decode w = .instr (.jr f.rA)) ∧
      (f.func ∈ ([4, 5, 6, 7, 9, 10, 11, 12, 13, 14, 15] : List Func) →
        decode w = .instr (.slt f.rA f.rB f.rC f.func))) ∧
    (f.opcode = 1 → decode w = .instr (.addi f.rA f.rB f.imm7)) ∧
    (f.opcode = 2 → decode w = .instr (.j f.imm13)) ∧
    (f.opcode = 3 → decode w = .instr (.jal f.imm13)) ∧
    (f.opcode = 4 → decode w = .instr (.lw f.rA f.rB f.imm7)) ∧
    (f.opcode = 5 → decode w = .instr (.sw f.rA f.rB f.imm7)) ∧
    (f.opcode = 6 → decode w = .instr (.jeq f.rA f.rB f.imm7)) ∧
    (f.opcode = 7 → decode w = .instr (.slti f.rA f.rB f.imm7))

/-- 30_encoding.md R74: each of the 65536 words is an instruction, none traps, and the undefined variant, which no
word decodes to, only advances the pc. -/
def Obligations.EveryWordIsAnInstruction : Prop :=
  (∀ w : Word, ∃ i : Instr, decode w = .instr i ∧ i.wf = true) ∧
  (∀ w : Word, decode w ≠ .undefined) ∧
  (∀ (i : Instr) (s : State), ∃ t, exec i s = .next t) ∧
  ∀ s : State, ∃ t, execUndefined s = .next t ∧ OnlyJumps s t (s.pc + 1)

/-- 30_encoding.md, the inference R79: every word falls under exactly one of the sixteen rows, and its instruction
is that row's. -/
def Obligations.OpcodeRowsPartitionTheWords : Prop :=
  ∀ w : Word, ∃ r ∈ opcodeRows, r.fits w = true ∧ (∀ r' ∈ opcodeRows, r'.fits w = true → r' = r) ∧
    ∃ i : Instr, decode w = .instr i ∧ i.mnemonic = r.mnemonic

/-- 30_encoding.md, the encoding functions R78 against the decoder: every well-formed instruction, every operand at
every value. -/
def Obligations.DecodeOfEncodeIsTheInstruction : Prop :=
  ∀ i : Instr, i.wf = true → decode (encode i) = .instr i

/-- 30_encoding.md, the inference R73: `jr` ignores bits 9–4, and every other word is its own instruction, written
back by the encoding functions of R78. That the encoder writes a `jr` with bits 9–4 clear is the model's choice, after
the notation of R76 (log entry 10). -/
def Obligations.EncodeOfDecodeIsTheWord : Prop :=
  ∀ (w : Word) (i : Instr), decode w = .instr i →
    encode i = if i.mnemonic = "jr" then w &&& 0xFC0F else w

/-- A few words assembled by hand (30_encoding.md R78, 95_test_vectors.md). A sanity check. -/
def Obligations.SampleWordsDecode : Prop :=
  decode 0b0000010100110000 = .instr (.add 1 2 3) ∧
  decode 0b0010010011111111 = .instr (.addi 1 1 127) ∧
  decode 0b0100000000000101 = .instr (.j 5) ∧
  decode 0b1010000101111111 = .instr (.sw 0 2 127) ∧
  decode 0b0001111111111000 = .instr (.jr 7)

/-- 30_encoding.md, R67 to R69 with the spec's own inferences: signedRel is toSigned(x, 16) for every 16-bit x, the
conversions of the 7-bit field are two's complement, for every one of its 128 values, and adding either conversion to a register gives one 16-bit sum (R130). -/
def Obligations.ImmediateConversionsAgree : Prop :=
  (∀ x : Word, signedRel x = (if x.toNat ≤ 32767 then (x.toNat : Int) else x.toNat - 65536) ∧
    signedRel x = toSigned x.toNat 16) ∧
  ∀ v : Imm7, signed7 v = (if v.toNat ≤ 63 then (v.toNat : Int) else v.toNat - 128) ∧ signed7 v = toSigned v.toNat 7 ∧
    (sext16 v).toNat = (if v.toNat ≤ 63 then v.toNat else v.toNat ||| 0xFF80) ∧
    sext16 v = mask16 (signed7 v) ∧ signedRel (sext16 v) = signed7 v ∧ ∀ x : Word, x + sext16 v = mask16 (uint x + signed7 v)

/-! ### The step -/

/-- 40_engine.md, R91, R92 and R95: a step of a block that is not halted is the meaning of the instruction decoded
from the cell at wrap(pc). The model adds nothing around it: at a self-jump, which the spec does not dispatch (R93,
R173), the halt check stands in `exec` of `j`, the model's choice (log entry 4). -/
def Obligations.StepRunsTheDecodedInstruction : Prop :=
  ∀ (s : State) (i : Instr), s.halted = false → decode (s.memRead (wrap s.pc)) = .instr i → step s = exec i s

/-- The model's own interface (log entry 9): the step after `withFetchWord` runs the table word's instruction. -/
def Obligations.TheTableWordIsFetchedNext : Prop :=
  ∀ (s : State) (nbits w : Nat) (i : Instr), decodeTableWord nbits w = some i →
    step (s.withFetchWord nbits w) = exec i (s.withFetchWord nbits w)

/-- 40_engine.md R90 (the spec's decision D4; log entry 3): a halted block ignores any number of steps, and no
transition leaves a halted state. -/
def Obligations.TheHaltedStateIsFinal : Prop :=
  ∀ s : State, s.halted = true → (∀ n : Nat, core.run n s = .next s) ∧ ∀ t : State, ¬ Transition s t

/-- 40_engine.md R93: where the fetched `j` targets the unreduced pc, the step sets `halted` and changes nothing
else, and pc lies in [0, 8191]; where pc lies outside, the check cannot hold, the jump executes, and if the word
stood in its own target's cell the next step halts there. -/
def Obligations.HaltCheckComparesTheUnreducedPc : Prop :=
  ∀ (s : State) (imm13 : Imm13), s.halted = false → decode s.fetch = .instr (.j imm13) →
    ((imm13.toNat : Int) = s.pc → step s = .next { s with halted := true } ∧ 0 ≤ s.pc ∧ s.pc ≤ 8191) ∧
    ((imm13.toNat : Int) ≠ s.pc → ∃ t, step s = .next t ∧ OnlyJumps s t imm13.toNat) ∧
    (s.pc < 0 ∨ 8191 < s.pc → ∃ t, step s = .next t ∧ OnlyJumps s t imm13.toNat ∧
      ((wrap s.pc).val = imm13.toNat → step t = .next { t with halted := true }))

/-- 40_engine.md, the inference R94: a transition enters the halted state exactly where the fetched word is a `j` to
the current pc; a `jal`, `jr` or `jeq` to its own address does not. -/
def Obligations.OnlyASelfJumpHalts : Prop :=
  ∀ s t : State, Transition s t →
    (t.halted = true ↔ ∃ imm13 : Imm13, decode s.fetch = .instr (.j imm13) ∧ (imm13.toNat : Int) = s.pc)

/-- 40_engine.md R100: exactly one successor, and never a fault or a refusal, for any number of steps. R100 speaks of
states that are not halted; that a step of a halted block answers next, with no change (R90, decision D4), is the
model's reading (log entry 3), on which the second clause rests. -/
def Obligations.TheStepIsTotal : Prop :=
  (∀ s : State, s.halted = false → ∃ t, step s = .next t ∧ ∀ u, step s = .next u → u = t) ∧
  ∀ (n : Nat) (s : State), ∃ t : State, core.run n s = .next t

/-- 40_engine.md R102: every step of the model, seen as the spec's variables, is the spec's own listing over
mathematical integers. In that listing the link of `jal` outside 16 bits is the spec's own decision D3 (log entry 5),
and the halted bit and the halted arm are its decision D4 (log entry 3). -/
def Obligations.TheStepRefinesTheListing : Prop :=
  ∀ s : State, ∃ t, step s = .next t ∧ t.vars = s.vars.step

/-- 10_state.md R28: the new pc of every instruction, unreduced, and of the undefined fallback; each completes in
every state. -/
def Obligations.EveryInstructionAdvancesThePcByTheTable : Prop :=
  (∀ (i : Instr) (s : State), ∃ t, exec i s = .next t ∧ t.pc = nextPc s i) ∧
  ∀ s : State, ∃ t, execUndefined s = .next t ∧ t.pc = s.pc + 1

/-- 10_state.md R25 and 40_engine.md R97: no instruction changes a register but its destination, a cell but the one
it stores to, or, but for `j`, the halted bit. -/
def Obligations.NothingElseIsWritten : Prop :=
  ∀ (i : Instr) (s t : State), exec i s = .next t →
    (∀ r : RegIdx, destReg i ≠ some r → t.readReg r = s.readReg r) ∧
    (∀ a : Addr, storeCell s i ≠ some a → t.memRead a = s.memRead a) ∧
    (i.mnemonic ≠ "j" → t.halted = s.halted)

/-- 10_state.md R25 and 20_memory.md R56: what an instruction writes depends on pc, the registers it reads and the
cell it loads, and on nothing else of the state. -/
def Obligations.NothingElseIsRead : Prop :=
  ∀ (i : Instr) (s s' : State), s.pc = s'.pc → (∀ r ∈ sourceRegs i, s.readReg r = s'.readReg r) →
    (∀ a, loadCell s i = some a → s.memRead a = s'.memRead a) →
    ∃ t t', exec i s = .next t ∧ exec i s' = .next t' ∧ t.pc = t'.pc ∧
      (s.halted = s'.halted → t.halted = t'.halted) ∧
      (∀ r : RegIdx, destReg i = some r → t.readReg r = t'.readReg r) ∧
      storeCell s i = storeCell s' i ∧ ∀ a, storeCell s i = some a → t.memRead a = t'.memRead a

/-- 40_engine.md, the inference R96: a destination that is also a source is read before it is written, for every
instruction that writes a register it reads, the destination standing in either source place (`k` may be `r` too). The
spec's two examples are `add r r r` and `lw` with its destination as base. -/
def Obligations.OperandsAreReadBeforeTheWrite : Prop :=
  ∀ (r k : RegIdx) (func : Func) (imm7 : Imm7) (s : State), r ≠ 0 →
    let x := (s.readReg r).toNat
    let y := (s.readReg k).toNat
    Leaves (.add r k r) s r ((x + y) % 65536) ∧ Leaves (.add k r r) s r ((y + x) % 65536) ∧
    Leaves (.sub r k r) s r (((x : Int) - y) % 65536).toNat ∧ Leaves (.sub k r r) s r (((y : Int) - x) % 65536).toNat ∧
    Leaves (.or r k r) s r (x ||| y) ∧ Leaves (.or k r r) s r (y ||| x) ∧
    Leaves (.and r k r) s r (x &&& y) ∧ Leaves (.and k r r) s r (y &&& x) ∧
    (sltFunc func = true → Leaves (.slt r k r func) s r (if x < y then 1 else 0) ∧
      Leaves (.slt k r r func) s r (if y < x then 1 else 0)) ∧
    Leaves (.addi r r imm7) s r (((x : Int) + signed7 imm7) % 65536).toNat ∧
    Leaves (.slti r r imm7) s r (if x < (sext16 imm7).toNat then 1 else 0) ∧
    Leaves (.lw r r imm7) s r (s.memRead (wrap ((x : Int) + signed7 imm7))).toNat

/-- 30_encoding.md, the inference R75: an instruction whose destination is `$0` changes only the pc. -/
def Obligations.AZeroDestinationOnlyAdvances : Prop :=
  ∀ (i : Instr) (s : State), destReg i = some 0 → exec i s = .next { s with pc := s.pc + 1 }

/-- 20_memory.md, the inference R54: a store into the cell fetched next is seen by that fetch. -/
def Obligations.AStoreIsSeenByTheNextFetch : Prop :=
  ∀ (s : State) (rA rB : RegIdx) (imm7 : Imm7) (i : Instr), s.halted = false →
    decode s.fetch = .instr (.sw rA rB imm7) → s.effAddr rA imm7 = wrap (s.pc + 1) →
    decode (s.readReg rB) = .instr i → ∃ t, step s = .next t ∧ step t = exec i t

/-- 43_control_transfer.md R143: `jr $7` returns to the instruction after the `jal`, from any state that still holds
the link; pc + 1 is taken to be a 16-bit value. -/
def Obligations.JrReturnsFromJal : Prop :=
  ∀ (imm13 : Imm13) (s t u : State), 0 ≤ s.pc + 1 → s.pc + 1 ≤ 65535 → exec (.jal imm13) s = .next t →
    u.readReg 7 = t.readReg 7 → ∃ v, exec (.jr 7) u = .next v ∧ v.pc = s.pc + 1

/-! ### Reset, load, invariant and runs -/

/-- 70_reset_and_hazards.md R191, and every cell 0 as 10_state.md R37 has it where no image is placed. -/
def Obligations.ResetStartsAtCellZero : Prop :=
  State.reset.pc = 0 ∧ State.reset.fetch = State.reset.memRead 0 ∧ (∀ r, State.reset.readReg r = 0) ∧
    State.reset.halted = false ∧ ∀ a, State.reset.memRead a = 0

/-- 70_reset_and_hazards.md R190 and 10_state.md R37 (with the spec's decisions D4 and D11): `Load` is a full reset
from any state, the image in the low cells and 0 in the others. That a longer image is refused is the model's choice
among those R192 allows (log entry 8). -/
def Obligations.LoadIsAFullReset : Prop :=
  ∀ (image : List Word) (s : State),
    (image.length ≤ 8192 → ∃ t, hostOp (.load image) s = .next t ∧ t.pc = 0 ∧ (∀ r, t.readReg r = 0) ∧
      t.halted = false ∧ (∀ a : Addr, t.memRead a = image.getD a.val 0) ∧ t.Inv) ∧
    (8192 < image.length → hostOp (.load image) s = .refused .imageTooLong)

/-- The invariant holds at reset. -/
def Obligations.ResetMeetsTheInvariant : Prop := State.reset.Inv

/-- Every step keeps the invariant, from every state that meets it: memory stays in canonical form, and a halted
state stands on the self-jump that halted it (40_engine.md R93, R103). -/
def Obligations.EveryStepKeepsTheInvariant : Prop :=
  ∀ s t : State, s.Inv → step s = .next t → t.Inv

/-- 40_engine.md R103, 70_reset_and_hazards.md R198: a run that starts not halted ends with pc on a `j` to pc, in
[0, 8191]. -/
def Obligations.ARunEndsOnASelfJump : Prop :=
  ∀ (n : Nat) (s t : State), s.halted = false → EndsIn n s t →
    0 ≤ t.pc ∧ t.pc ≤ 8191 ∧ ∃ imm13 : Imm13, decode t.fetch = .instr (.j imm13) ∧ t.pc = imm13.toNat

/-- 40_engine.md R100, R101: a run has at most one end, reached after one number of steps. -/
def Obligations.ARunHasOneEnd : Prop :=
  ∀ (n m : Nat) (s t u : State), EndsIn n s t → EndsIn m s u → n = m ∧ t = u
end

