-- ==== Sys2Proof/Laws/Decode.lean ====
section
/-! SUPPORT. The fields of a word as numbers, the encoder's words as numbers, and the fields of an encoded word. -/

namespace Sys2Proof

/-! ### The fields of a word, as numbers (30_encoding.md R61) -/

@[simp] theorem regOf_val (b : BitVec 3) : (regOf b).val = b.toNat := rfl

@[simp] theorem regBits_toNat (r : RegIdx) : (regBits r).toNat = r.val := by
  simp [regBits]

theorem opcode_toNat (w : Word) : (extractFields w).opcode.toNat = w.toNat / 8192 := by
  have := w.isLt
  simp [extractFields, Nat.shiftRight_eq_div_pow]
  omega

theorem rA_val (w : Word) : (extractFields w).rA.val = w.toNat / 1024 % 8 := by
  simp [extractFields, Nat.shiftRight_eq_div_pow]

theorem rB_val (w : Word) : (extractFields w).rB.val = w.toNat / 128 % 8 := by
  simp [extractFields, Nat.shiftRight_eq_div_pow]

theorem rC_val (w : Word) : (extractFields w).rC.val = w.toNat / 16 % 8 := by
  simp [extractFields, Nat.shiftRight_eq_div_pow]

theorem func_toNat (w : Word) : (extractFields w).func.toNat = w.toNat % 16 := by
  simp [extractFields]

theorem imm7_toNat (w : Word) : (extractFields w).imm7.toNat = w.toNat % 128 := by
  simp [extractFields]

theorem imm13_toNat (w : Word) : (extractFields w).imm13.toNat = w.toNat % 8192 := by
  simp [extractFields]

/-! ### The encoder's words, as numbers (30_encoding.md R78) -/

/-- Concatenation of fields is addition of the shifted field. -/
theorem append_toNat {n m : Nat} (x : BitVec n) (y : BitVec m) : (x ++ y).toNat = x.toNat * 2 ^ m + y.toNat := by
  rw [BitVec.toNat_append, ← Nat.shiftLeft_add_eq_or_of_lt y.isLt, Nat.shiftLeft_eq]

theorem encR_toNat (rA rB rC : RegIdx) (func : Func) :
    (encR rA rB rC func).toNat = rA.val * 1024 + rB.val * 128 + rC.val * 16 + func.toNat := by
  simp only [encR, append_toNat, regBits_toNat, BitVec.toNat_ofNat]
  omega

theorem encI_toNat (op : BitVec 3) (rA rB : RegIdx) (imm7 : Imm7) :
    (encI op rA rB imm7).toNat = op.toNat * 8192 + rA.val * 1024 + rB.val * 128 + imm7.toNat := by
  simp only [encI, append_toNat, regBits_toNat]
  omega

theorem encJ_toNat (op : BitVec 3) (imm13 : Imm13) : (encJ op imm13).toNat = op.toNat * 8192 + imm13.toNat := by
  simp only [encJ, append_toNat]
  omega

/-! ### The fields of an encoded word -/

theorem extractFields_encR (rA rB rC : RegIdx) (func : Func) :
    (extractFields (encR rA rB rC func)).opcode = 0 ∧ (extractFields (encR rA rB rC func)).rA = rA ∧
      (extractFields (encR rA rB rC func)).rB = rB ∧ (extractFields (encR rA rB rC func)).rC = rC ∧
      (extractFields (encR rA rB rC func)).func = func := by
  have h := encR_toNat rA rB rC func
  have hf := func.isLt
  refine ⟨BitVec.eq_of_toNat_eq ?_, Fin.ext ?_, Fin.ext ?_, Fin.ext ?_, BitVec.eq_of_toNat_eq ?_⟩
  · rw [opcode_toNat, h]
    show _ = 0
    omega
  · rw [rA_val, h]; omega
  · rw [rB_val, h]; omega
  · rw [rC_val, h]; omega
  · rw [func_toNat, h]; omega

theorem extractFields_encI (op : BitVec 3) (rA rB : RegIdx) (imm7 : Imm7) :
    (extractFields (encI op rA rB imm7)).opcode = op ∧ (extractFields (encI op rA rB imm7)).rA = rA ∧
      (extractFields (encI op rA rB imm7)).rB = rB ∧ (extractFields (encI op rA rB imm7)).imm7 = imm7 := by
  have h := encI_toNat op rA rB imm7
  have hi := imm7.isLt
  refine ⟨BitVec.eq_of_toNat_eq ?_, Fin.ext ?_, Fin.ext ?_, BitVec.eq_of_toNat_eq ?_⟩
  · rw [opcode_toNat, h]; omega
  · rw [rA_val, h]; omega
  · rw [rB_val, h]; omega
  · rw [imm7_toNat, h]; omega

theorem extractFields_encJ (op : BitVec 3) (imm13 : Imm13) :
    (extractFields (encJ op imm13)).opcode = op ∧ (extractFields (encJ op imm13)).imm13 = imm13 := by
  have h := encJ_toNat op imm13
  have hi := imm13.isLt
  refine ⟨BitVec.eq_of_toNat_eq ?_, BitVec.eq_of_toNat_eq ?_⟩
  · rw [opcode_toNat, h]; omega
  · rw [imm13_toNat, h]; omega

/-! ### A masked word is its opcode and func (30_encoding.md R79) -/

/-- The R-form mask keeps the opcode and the func. -/
theorem and_maskR (w : Word) : w &&& 0xE00F = (extractFields w).opcode ++ 0#9 ++ (extractFields w).func := by
  refine BitVec.eq_of_getLsbD_eq fun i hi => ?_
  simp only [extractFields, BitVec.getLsbD_append, BitVec.getLsbD_and]
  interval_cases i <;> simp

/-- The I- and J-form mask keeps the opcode. -/
theorem and_maskI (w : Word) : w &&& 0xE000 = (extractFields w).opcode ++ 0#13 := by
  refine BitVec.eq_of_getLsbD_eq fun i hi => ?_
  simp only [extractFields, BitVec.getLsbD_append, BitVec.getLsbD_and]
  interval_cases i <;> simp

/-- A word under an R-form row: its opcode and func are the row's. -/
theorem and_maskR_iff (w : Word) (op : BitVec 3) (func : Func) :
    w &&& 0xE00F = op ++ 0#9 ++ func ↔ (extractFields w).opcode = op ∧ (extractFields w).func = func := by
  rw [and_maskR]
  constructor
  · intro h
    have h := congrArg BitVec.toNat h
    simp only [append_toNat, BitVec.toNat_ofNat] at h
    have h1 := (extractFields w).func.isLt
    have h2 := func.isLt
    exact ⟨BitVec.eq_of_toNat_eq (by omega), BitVec.eq_of_toNat_eq (by omega)⟩
  · rintro ⟨h1, h2⟩
    rw [h1, h2]

/-- A word under an I- or J-form row: its opcode is the row's. -/
theorem and_maskI_iff (w : Word) (op : BitVec 3) : w &&& 0xE000 = op ++ 0#13 ↔ (extractFields w).opcode = op := by
  rw [and_maskI]
  constructor
  · intro h
    have h := congrArg BitVec.toNat h
    simp only [append_toNat, BitVec.toNat_ofNat] at h
    exact BitVec.eq_of_toNat_eq (by omega)
  · intro h
    rw [h]

end Sys2Proof
end

