-- ==== Sys2Proof/Laws/State.lean ====
section
/-! SUPPORT. The small lemmas of the state's updates: each field, register and cell after each named operation. -/

namespace Sys2Proof.Machine

variable (s : State)

@[simp] theorem setPc_pc (t : Int) : (s.setPc t).pc = t := rfl
@[simp] theorem setPc_regs (t : Int) : (s.setPc t).regs = s.regs := rfl
@[simp] theorem setPc_mem (t : Int) : (s.setPc t).mem = s.mem := rfl
@[simp] theorem setPc_halted (t : Int) : (s.setPc t).halted = s.halted := rfl
@[simp] theorem setPc_readReg (t : Int) (i : RegIdx) : (s.setPc t).readReg i = s.readReg i := rfl
@[simp] theorem setPc_memRead (t : Int) (a : Addr) : (s.setPc t).memRead a = s.memRead a := rfl

@[simp] theorem advance_pc : s.advance.pc = s.pc + 1 := rfl
@[simp] theorem advance_regs : s.advance.regs = s.regs := rfl
@[simp] theorem advance_mem : s.advance.mem = s.mem := rfl
@[simp] theorem advance_halted : s.advance.halted = s.halted := rfl
@[simp] theorem advance_readReg (i : RegIdx) : s.advance.readReg i = s.readReg i := rfl
@[simp] theorem advance_memRead (a : Addr) : s.advance.memRead a = s.memRead a := rfl

@[simp] theorem halt_pc : s.halt.pc = s.pc := rfl
@[simp] theorem halt_regs : s.halt.regs = s.regs := rfl
@[simp] theorem halt_mem : s.halt.mem = s.mem := rfl
@[simp] theorem halt_halted : s.halt.halted = true := rfl
@[simp] theorem halt_readReg (i : RegIdx) : s.halt.readReg i = s.readReg i := rfl
@[simp] theorem halt_memRead (a : Addr) : s.halt.memRead a = s.memRead a := rfl
@[simp] theorem halt_fetch : s.halt.fetch = s.fetch := rfl

@[simp] theorem memWrite_pc (a : Addr) (v : Word) : (s.memWrite a v).pc = s.pc := rfl
@[simp] theorem memWrite_regs (a : Addr) (v : Word) : (s.memWrite a v).regs = s.regs := rfl
@[simp] theorem memWrite_mem (a : Addr) (v : Word) : (s.memWrite a v).mem = s.mem.write a v := rfl
@[simp] theorem memWrite_halted (a : Addr) (v : Word) : (s.memWrite a v).halted = s.halted := rfl
@[simp] theorem memWrite_readReg (a : Addr) (v : Word) (i : RegIdx) :
    (s.memWrite a v).readReg i = s.readReg i := rfl

/-- A register write touches the registers alone, whichever register it names. -/
theorem writeReg_frame (i : RegIdx) (v : Word) :
    (s.writeReg i v).pc = s.pc ∧ (s.writeReg i v).mem = s.mem ∧ (s.writeReg i v).halted = s.halted := by
  unfold State.writeReg
  split <;> exact ⟨rfl, rfl, rfl⟩

@[simp] theorem writeReg_pc (i : RegIdx) (v : Word) : (s.writeReg i v).pc = s.pc := (writeReg_frame s i v).1
@[simp] theorem writeReg_mem (i : RegIdx) (v : Word) : (s.writeReg i v).mem = s.mem := (writeReg_frame s i v).2.1
@[simp] theorem writeReg_halted (i : RegIdx) (v : Word) : (s.writeReg i v).halted = s.halted :=
  (writeReg_frame s i v).2.2
@[simp] theorem writeReg_memRead (i : RegIdx) (v : Word) (a : Addr) :
    (s.writeReg i v).memRead a = s.memRead a := by simp [State.memRead]

/-- `$0` reads 0 in every state. -/
@[simp] theorem readReg_zero : s.readReg 0 = 0 := rfl

/-- A write to `$0` is discarded. -/
@[simp] theorem writeReg_zero (v : Word) : s.writeReg 0 v = s := rfl

/-- Everything a register write does to the registers. -/
theorem readReg_writeReg (i j : RegIdx) (v : Word) :
    (s.writeReg i v).readReg j = if j = i ∧ i ≠ 0 then v else s.readReg j := by
  fin_cases i <;> fin_cases j <;> rfl

theorem readReg_writeReg_self (i : RegIdx) (v : Word) (h : i ≠ 0) : (s.writeReg i v).readReg i = v := by
  simp [readReg_writeReg, h]

theorem readReg_writeReg_of_ne (i j : RegIdx) (v : Word) (h : j ≠ i) :
    (s.writeReg i v).readReg j = s.readReg j := by
  simp [readReg_writeReg, h]

end Sys2Proof.Machine
end

