-- ==== Sys2Proof/Laws/Memory.lean ====
section
/-! SUPPORT. Read after write, and that every memory operation keeps the canonical form. -/

namespace Sys2Proof.Machine

/-! ### Reading after writing -/

theorem Memory.read_erase (m : Memory) (a b : Addr) :
    Memory.read (m.erase a) b = if b = a then Config.unlistedCell else m.read b := by
  have key : b = a ↔ b.val = a.val := Fin.ext_iff
  induction m with
  | nil => simp [Memory.erase, Memory.read]
  | cons c m ih =>
    obtain ⟨k, v⟩ := c
    simp only [Memory.erase, key] at ih ⊢
    by_cases hk : k = a.val
    · by_cases hb : b.val = a.val <;> simp_all [Memory.read, eq_comm]
    · by_cases hb : b.val = a.val <;> by_cases hkb : k = b.val <;> simp_all [Memory.read]

theorem Memory.read_insert (m : Memory) (a b : Addr) (v : Word) (h : ∀ c ∈ m, c.1 ≠ a.val) :
    Memory.read (m.insert a v) b = if b = a then v else m.read b := by
  have key : b = a ↔ b.val = a.val := Fin.ext_iff
  induction m with
  | nil => simp [Memory.insert, Memory.read, key, eq_comm]
  | cons c m ih =>
    obtain ⟨k, u⟩ := c
    have hk : k ≠ a.val := h (k, u) (by simp)
    have ih := ih fun c hc => h c (by simp [hc])
    simp only [key] at ih ⊢
    unfold Memory.insert
    split
    · by_cases hb : b.val = a.val <;> simp [Memory.read, hb, eq_comm]
      intro he
      exact absurd he.symm hb
    · by_cases hb : b.val = a.val <;> by_cases hkb : k = b.val <;> simp_all [Memory.read]

theorem Memory.ne_of_mem_erase (m : Memory) (a : Addr) (c : Cell) (h : c ∈ m.erase a) : c.1 ≠ a.val := by
  simpa [Memory.erase] using (List.mem_filter.mp h).2

/-- Everything a memory write does to the cells: cell `a` holds `v`, every other cell is as before. -/
theorem Memory.read_write (m : Memory) (a b : Addr) (v : Word) :
    Memory.read (m.write a v) b = if b = a then v else m.read b := by
  unfold Memory.write
  split
  · rename_i h
    rw [h, Memory.read_erase]
  · rw [Memory.read_insert _ _ _ _ (Memory.ne_of_mem_erase m a), Memory.read_erase]
    split <;> rfl

theorem memRead_memWrite (s : State) (a b : Addr) (v : Word) :
    (s.memWrite a v).memRead b = if b = a then v else s.memRead b := Memory.read_write s.mem a b v

@[simp] theorem memRead_memWrite_self (s : State) (a : Addr) (v : Word) : (s.memWrite a v).memRead a = v := by
  simp [memRead_memWrite]

theorem memRead_memWrite_of_ne (s : State) (a b : Addr) (v : Word) (h : b ≠ a) :
    (s.memWrite a v).memRead b = s.memRead b := by
  simp [memRead_memWrite, h]

/-! ### The canonical form -/

theorem Memory.wf_erase (m : Memory) (a : Addr) (h : m.wf) : Memory.wf (m.erase a) :=
  ⟨h.1.filter _, fun c hc => h.2 c (List.mem_filter.mp hc).1⟩

theorem Memory.mem_insert (m : Memory) (a : Addr) (v : Word) (c : Cell) :
    c ∈ m.insert a v ↔ c = (a.val, v) ∨ c ∈ m := by
  induction m with
  | nil => simp [Memory.insert]
  | cons d m ih =>
    obtain ⟨k, u⟩ := d
    unfold Memory.insert
    split
    · simp
    · simp only [List.mem_cons, ih]
      tauto

theorem Memory.pairwise_insert (m : Memory) (a : Addr) (v : Word) (h : m.Pairwise (fun c d => c.1 < d.1))
    (hne : ∀ c ∈ m, c.1 ≠ a.val) : (m.insert a v).Pairwise (fun c d => c.1 < d.1) := by
  induction m with
  | nil => simp [Memory.insert]
  | cons d m ih =>
    obtain ⟨k, u⟩ := d
    have hd := List.pairwise_cons.mp h
    have hk : k ≠ a.val := hne (k, u) (by simp)
    unfold Memory.insert
    split
    · rename_i hlt
      refine List.pairwise_cons.mpr ⟨?_, h⟩
      rintro c hc
      obtain rfl | hc := List.mem_cons.mp hc
      · exact hlt
      · exact lt_trans hlt (hd.1 c hc)
    · refine List.pairwise_cons.mpr ⟨?_, ih hd.2 fun c hc => hne c (by simp [hc])⟩
      rintro c hc
      obtain rfl | hc := (Memory.mem_insert m a v c).mp hc
      · show k < a.val
        omega
      · exact hd.1 c hc

/-- A write keeps the canonical form. -/
theorem Memory.wf_write (m : Memory) (a : Addr) (v : Word) (h : m.wf) : Memory.wf (m.write a v) := by
  have he := Memory.wf_erase m a h
  unfold Memory.write
  split
  · exact he
  · rename_i hv
    refine ⟨Memory.pairwise_insert _ a v he.1 (Memory.ne_of_mem_erase m a), fun c hc => ?_⟩
    obtain rfl | hc := (Memory.mem_insert _ a v c).mp hc
    · exact ⟨a.isLt, hv⟩
    · exact he.2 c hc

/-! ### Loading an image -/

/-- A listed cell of an image lies at or above its start, below its end, and holds no unlisted value. -/
theorem mem_imageCells (vs : List Word) (a : Nat) (c : Cell) (h : c ∈ imageCells a vs) :
    a ≤ c.1 ∧ c.1 < a + vs.length ∧ c.2 ≠ Config.unlistedCell := by
  induction vs generalizing a with
  | nil => simp [imageCells] at h
  | cons v vs ih =>
    unfold imageCells at h
    split at h
    · have := ih _ h
      simp only [List.length_cons]
      exact ⟨by omega, by omega, this.2.2⟩
    · rename_i hv
      obtain rfl | h := List.mem_cons.mp h
      · exact ⟨le_refl _, by simp, hv⟩
      · have := ih _ h
        simp only [List.length_cons]
        exact ⟨by omega, by omega, this.2.2⟩

/-- An image that fits gives memory in canonical form. -/
theorem wf_imageCells (vs : List Word) (a : Nat) (h : a + vs.length ≤ 8192) : Memory.wf (imageCells a vs) := by
  refine ⟨?_, fun c hc => ?_⟩
  · clear h
    induction vs generalizing a with
    | nil => simp [imageCells]
    | cons v vs ih =>
      unfold imageCells
      split
      · exact ih _
      · refine List.pairwise_cons.mpr ⟨fun c hc => ?_, ih _⟩
        have := mem_imageCells vs (a + 1) c hc
        show a < c.1
        omega
  · have := mem_imageCells vs a c hc
    exact ⟨by omega, this.2.2⟩

/-- A cell below the place where an image starts is not listed by it. -/
theorem read_imageCells_of_lt (vs : List Word) (a : Nat) (b : Addr) (h : b.val < a) :
    Memory.read (imageCells a vs) b = Config.unlistedCell := by
  induction vs generalizing a with
  | nil => simp [imageCells, Memory.read]
  | cons v vs ih =>
    have ih := ih (a + 1) (by omega)
    unfold imageCells
    split
    · exact ih
    · simp [Memory.read, ih, show ¬ a = b.val by omega]

/-- Everything a loaded image does to the cells: cell `a + i` holds `image[i]`, cells past the end hold 0. -/
theorem read_imageCells (vs : List Word) (a : Nat) (b : Addr) (h : a ≤ b.val) :
    Memory.read (imageCells a vs) b = vs.getD (b.val - a) Config.unlistedCell := by
  induction vs generalizing a with
  | nil => simp [imageCells, Memory.read]
  | cons v vs ih =>
    by_cases hb : a = b.val
    · subst hb
      have := read_imageCells_of_lt vs (b.val + 1) b (by omega)
      unfold imageCells
      split <;> simp_all [Memory.read]
    · have ih := ih (a + 1) (by omega)
      have hs : b.val - a = (b.val - (a + 1)) + 1 := by omega
      unfold imageCells
      rw [hs]
      split <;> simp_all [Memory.read]

end Sys2Proof.Machine
end

