-- ==== Sys2Proof/Laws/Exec.lean ====
section
/-! SUPPORT. One lemma per meaning, and what a step is in each of its cases. -/

namespace Sys2Proof.Machine

variable (s : State) (rA rB rC : RegIdx) (imm7 : Imm7) (imm13 : Imm13)

/-! ### Arithmetic -/

theorem wrap_val (x : Int) : ((wrap x).val : Int) = x % 8192 := by
  simp only [wrap]
  omega

theorem mask16_toNat (x : Int) : ((mask16 x).toNat : Int) = x % 65536 := by
  simp only [mask16, BitVec.toNat_ofNat]
  omega

theorem setLess_toNat (a b : Word) : (setLess a b).toNat = if a.toNat < b.toNat then 1 else 0 := by
  unfold setLess
  split <;> rfl

/-! ### The next state of each meaning -/

/-- Everything a write-back does: it always answers this next state. -/
theorem writeBack_eq (rd : RegIdx) (v : Word) : writeBack s rd v = .next (s.writeReg rd v).advance := rfl

theorem exec_add : exec (.add rA rB rC) s =
    .next (s.writeReg rC (mask16 (uint (s.readReg rA) + uint (s.readReg rB)))).advance := rfl
theorem exec_sub : exec (.sub rA rB rC) s =
    .next (s.writeReg rC (mask16 (uint (s.readReg rA) - uint (s.readReg rB)))).advance := rfl
theorem exec_or : exec (.or rA rB rC) s = .next (s.writeReg rC (s.readReg rA ||| s.readReg rB)).advance := rfl
theorem exec_and : exec (.and rA rB rC) s = .next (s.writeReg rC (s.readReg rA &&& s.readReg rB)).advance := rfl
theorem exec_slt (func : Func) : exec (.slt rA rB rC func) s =
    .next (s.writeReg rC (setLess (s.readReg rA) (s.readReg rB))).advance := rfl
theorem exec_jr : exec (.jr rA) s = .next (s.setPc (uint (s.readReg rA))) := rfl
theorem exec_addi : exec (.addi rA rB imm7) s =
    .next (s.writeReg rB (mask16 (uint (s.readReg rA) + signed7 imm7))).advance := rfl
theorem exec_slti : exec (.slti rA rB imm7) s =
    .next (s.writeReg rB (setLess (s.readReg rA) (sext16 imm7))).advance := rfl
theorem exec_j : exec (.j imm13) s =
    .next (if s.haltCheck imm13 then s.halt else s.setPc (jumpTarget imm13)) := rfl
theorem exec_jal : exec (.jal imm13) s =
    .next ((s.writeReg Config.linkReg (mask16 (s.pc + 1))).setPc (jumpTarget imm13)) := rfl
theorem exec_jeq : exec (.jeq rA rB imm7) s =
    .next (if sameWord (s.readReg rA) (s.readReg rB) then s.setPc (s.pc + 1 + branchOffset imm7) else s.advance) := rfl
theorem exec_lw : exec (.lw rA rB imm7) s =
    .next (s.writeReg rB (s.memRead (s.effAddr rA imm7))).advance := rfl
theorem exec_sw : exec (.sw rA rB imm7) s =
    .next (s.memWrite (s.effAddr rA imm7) (s.readReg rB)).advance := rfl

/-- The halt check, as an equation (40_engine.md R93). -/
theorem haltCheck_iff : s.haltCheck imm13 = true ↔ (imm13.toNat : Int) = s.pc := by
  simp [State.haltCheck]

/-! ### The step -/

theorem step_of_halted (h : s.halted = true) : step s = .next s := by
  simp [step, h]

theorem step_of_decode (i : Instr) (h : s.halted = false) (hd : decode s.fetch = .instr i) : step s = exec i s := by
  simp [step, h, hd]

/-- `n + 1` steps of any machine are one step and then `n`. -/
theorem run_succ (M : Host.Core) (n : Nat) (s t : M.State) (h : M.step s = .next t) :
    M.run (n + 1) s = M.run n t := by
  simp [Host.Core.run, h]

theorem core_run_succ (n : Nat) (t : State) (h : step s = .next t) : core.run (n + 1) s = core.run n t :=
  run_succ core n s t h

end Sys2Proof.Machine
end

