-- ==== Sys2Proof/Laws/PerInstr.lean ====
section
/-! SUPPORT. The family `EncodeRow`: the word of each instruction carries the opcode of 30_encoding.md R71. -/

namespace Sys2Proof.Laws

/-- The opcode of each instruction (30_encoding.md R71). -/
def opcodeOf : Instr → BitVec 3
  | .add _ _ _ => 0
  | .sub _ _ _ => 0
  | .or _ _ _ => 0
  | .and _ _ _ => 0
  | .slt _ _ _ _ => 0
  | .jr _ => 0
  | .addi _ _ _ => 1
  | .j _ => 2
  | .jal _ => 3
  | .lw _ _ _ => 4
  | .sw _ _ _ => 5
  | .jeq _ _ _ => 6
  | .slti _ _ _ => 7

/-- The encoded word's opcode field is the instruction's opcode. -/
def EncodeRow.Statement (i : Instr) : Prop := (extractFields (encode i)).opcode = opcodeOf i

theorem EncodeRow.add (rA rB rC : RegIdx) : EncodeRow.Statement (.add rA rB rC) := (extractFields_encR rA rB rC 0).1
theorem EncodeRow.sub (rA rB rC : RegIdx) : EncodeRow.Statement (.sub rA rB rC) := (extractFields_encR rA rB rC 1).1
theorem EncodeRow.or (rA rB rC : RegIdx) : EncodeRow.Statement (.or rA rB rC) := (extractFields_encR rA rB rC 2).1
theorem EncodeRow.and (rA rB rC : RegIdx) : EncodeRow.Statement (.and rA rB rC) := (extractFields_encR rA rB rC 3).1
theorem EncodeRow.slt (rA rB rC : RegIdx) (func : Func) : EncodeRow.Statement (.slt rA rB rC func) :=
  (extractFields_encR rA rB rC func).1
theorem EncodeRow.jr (rA : RegIdx) : EncodeRow.Statement (.jr rA) := (extractFields_encR rA 0 0 8).1
theorem EncodeRow.addi (rA rB : RegIdx) (imm7 : Imm7) : EncodeRow.Statement (.addi rA rB imm7) :=
  (extractFields_encI 1 rA rB imm7).1
theorem EncodeRow.j (imm13 : Imm13) : EncodeRow.Statement (.j imm13) := (extractFields_encJ 2 imm13).1
theorem EncodeRow.jal (imm13 : Imm13) : EncodeRow.Statement (.jal imm13) := (extractFields_encJ 3 imm13).1
theorem EncodeRow.lw (rA rB : RegIdx) (imm7 : Imm7) : EncodeRow.Statement (.lw rA rB imm7) :=
  (extractFields_encI 4 rA rB imm7).1
theorem EncodeRow.sw (rA rB : RegIdx) (imm7 : Imm7) : EncodeRow.Statement (.sw rA rB imm7) :=
  (extractFields_encI 5 rA rB imm7).1
theorem EncodeRow.jeq (rA rB : RegIdx) (imm7 : Imm7) : EncodeRow.Statement (.jeq rA rB imm7) :=
  (extractFields_encI 6 rA rB imm7).1
theorem EncodeRow.slti (rA rB : RegIdx) (imm7 : Imm7) : EncodeRow.Statement (.slti rA rB imm7) :=
  (extractFields_encI 7 rA rB imm7).1

end Sys2Proof.Laws
end

