-- ==== Sys2Proof/Tests/Slice0.lean ====
section
/-! SUPPORT. Small tests, and for each statement with hypotheses a witness that meets them. Expected results are the
vectors of 95_test_vectors.md (their ids stand in the comments) or hand assembly by 30_encoding.md R78. -/

namespace Sys2Proof.Tests

open Sys2Proof.Machine

/-! ### Ill-formed instructions are refused -/

theorem test_slt_func_of_others_ill_formed :
    [0, 1, 2, 3, 8].all (fun f : Func => !(Instr.slt 3 1 2 f).wf) = true := by decide

theorem test_slt_eleven_funcs_well_formed :
    [4, 5, 6, 7, 9, 10, 11, 12, 13, 14, 15].all (fun f : Func => (Instr.slt 3 1 2 f).wf) = true := by decide

/-! ### Decoding, words written out bit by bit from 30_encoding.md R64 and R79 -/

/-- 000 001 010 011 0000 -/
theorem test_decode_add : decode 0b0000010100110000 = .instr (.add 1 2 3) := by decide
/-- 000 001 010 011 0001 -/
theorem test_decode_sub : decode 0b0000010100110001 = .instr (.sub 1 2 3) := by decide
/-- 000 001 010 011 0010 -/
theorem test_decode_or : decode 0b0000010100110010 = .instr (.or 1 2 3) := by decide
/-- 000 001 010 011 0011 -/
theorem test_decode_and : decode 0b0000010100110011 = .instr (.and 1 2 3) := by decide
/-- One word under each of the four patterns 01xx, 1001, 101x, 11xx. -/
theorem test_decode_slt :
    decode 0b0000010100110100 = .instr (.slt 1 2 3 4) ∧ decode 0b0000010100111001 = .instr (.slt 1 2 3 9) ∧
      decode 0b0000010100111011 = .instr (.slt 1 2 3 11) ∧ decode 0b0000010100111111 = .instr (.slt 1 2 3 15) := by
  decide
/-- 000 111 111 111 1000, V-dec-2: bits 9–4 ignored. -/
theorem test_decode_jr : decode 0b0001111111111000 = .instr (.jr 7) := by decide
/-- 001 000 001 0000011 -/
theorem test_decode_addi : decode 0b0010000010000011 = .instr (.addi 0 1 3) := by decide
/-- 010 1111111111111 -/
theorem test_decode_j : decode 0b0101111111111111 = .instr (.j 8191) := by decide
/-- 011 0000000001010 -/
theorem test_decode_jal : decode 0b0110000000001010 = .instr (.jal 10) := by decide
/-- 100 001 010 0000000 -/
theorem test_decode_lw : decode 0b1000010100000000 = .instr (.lw 1 2 0) := by decide
/-- 101 000 010 1111111 -/
theorem test_decode_sw : decode 0b1010000101111111 = .instr (.sw 0 2 127) := by decide
/-- 110 001 010 0000010 -/
theorem test_decode_jeq : decode 0b1100010100000010 = .instr (.jeq 1 2 2) := by decide
/-- 111 111 111 1111111, V-dec-1 -/
theorem test_decode_slti : decode 0b1111111111111111 = .instr (.slti 7 7 127) := by decide

/-- The examples of R78. -/
theorem test_encode_examples :
    encode (.add 1 2 3) = 0x0530 ∧ encode (.addi 0 1 3) = 0x2083 ∧ encode (.jeq 1 2 2) = 0xC502 := by decide

/-- The opcode table's numbering: bit 0 is bit 0 of the one word. -/
theorem test_table_word : decodeTableWord 16 0x1C08 = some (.jr 7) := by decide

/-! ### One step on a small state -/

/-- The word at the cell that pc fetches, and otherwise reset. -/
def start (pc : Int) (w : Word) (x1 x2 x3 : Word) : State :=
  { State.reset with pc := pc, regs := ⟨x1, x2, x3, 0, 0, 0, 0⟩, mem := [((wrap pc).val, w)] }

/-- What a test reads of the state after one step. -/
def after {α : Type} (s : State) (f : State → α) : Option α :=
  match step s with
  | .next t => some (f t)
  | .fault _ => none
  | .refused _ => none

/-- V-add-2 -/
theorem test_add_wraps : after (start 0 0x0530 0xFFFF 1 9) (fun t => (t.readReg 3, t.pc)) = some (0, 1) := by decide
/-- V-add-6 -/
theorem test_add_in_place : after (start 0 0x0490 0x4001 0 0) (·.readReg 1) = some 0x8002 := by decide
/-- V-sub-2 -/
theorem test_sub_wraps : after (start 0 0x0531 3 4 0) (fun t => (t.readReg 3, t.pc)) = some (0xFFFF, 1) := by decide
/-- V-or-1 -/
theorem test_or : after (start 0 0x0532 0x00F0 0x0F0F 0) (·.readReg 3) = some 0x0FFF := by decide
/-- V-and-1 -/
theorem test_and : after (start 0 0x0533 0x00F0 0x0F3F 0) (·.readReg 3) = some 0x0030 := by decide
/-- V-slt-2 -/
theorem test_slt_is_unsigned : after (start 0 0x0534 0xFFFF 1 9) (·.readReg 3) = some 0 := by decide
/-- V-slt-5 -/
theorem test_slt_func_15 : after (start 0 0x053F 3 4 0) (·.readReg 3) = some 1 := by decide
/-- V-jr-3 -/
theorem test_jr_keeps_the_target_unreduced : after (start 0 0x0408 0xFFFF 0 0) (·.pc) = some 65535 := by decide
/-- V-addi-1 -/
theorem test_addi_minus_one : after (start 0 0x24FF 5 0 0) (·.readReg 1) = some 4 := by decide
/-- V-addi-7 -/
theorem test_addi_to_zero_discarded : after (start 0 0x2401 5 0 0) (fun t => (t.readReg 0, t.pc)) = some (0, 1) := by
  decide
/-- V-slti-2 -/
theorem test_slti_equal_bound : after (start 0 0xE57F 0xFFFF 9 0) (·.readReg 2) = some 0 := by decide
/-- V-slti-3 -/
theorem test_slti_is_unsigned : after (start 0 0xE505 0xFFFF 9 0) (·.readReg 2) = some 0 := by decide
/-- V-j-2 -/
theorem test_j_self_halts : after (start 5 0x4005 0 0 0) (fun t => (t.halted, t.pc)) = some (true, 5) := by decide
/-- V-j-5 -/
theorem test_j_from_minus_one_jumps :
    after (start (-1) 0x5FFF 0 0 0) (fun t => (t.halted, t.pc)) = some (false, 8191) := by decide
/-- V-jal-5 (decision D3) -/
theorem test_jal_negative_link : after (start (-10) 0x6000 0 0 0) (fun t => (t.readReg 7, t.pc)) = some (0xFFF7, 0) := by
  decide
/-- V-jal-2 -/
theorem test_jal_self_does_not_halt :
    after (start 2 0x6002 0 0 0) (fun t => (t.readReg 7, t.pc, t.halted)) = some (3, 2, false) := by decide
/-- V-jeq-2 -/
theorem test_jeq_not_taken : after (start 3 0xC502 7 8 0) (·.pc) = some 4 := by decide
/-- V-jeq-4 -/
theorem test_jeq_to_a_negative_pc : after (start 0 0xC040 0 0 0) (·.pc) = some (-63) := by decide
/-- V-lw-3 -/
theorem test_lw_wraps_to_its_own_word : after (start 0 0x8501 0xFFFF 0 0) (·.readReg 2) = some 0x8501 := by decide
/-- V-lw-4 -/
theorem test_lw_uses_the_old_base :
    after { start 0 0x8485 0x2000 0 0 with mem := [(0, 0x8485), (5, 0x0042)] } (·.readReg 1) = some 0x0042 := by decide
/-- V-sw-1 -/
theorem test_sw_below_zero_wraps : after (start 0 0xA17F 0 0xBEEF 0) (·.memRead 8191) = some 0xBEEF := by decide
/-- V-sw-3: storing 0 leaves the cell unlisted. -/
theorem test_sw_zero :
    after { start 0 0xA014 0 0 0 with mem := [(0, 0xA014), (20, 0x1111)] } (·.mem) = some [(0, 0xA014)] := by decide
/-- V-halted-1 -/
theorem test_step_when_halted :
    after { start 5 0x0530 3 4 0 with halted := true } id = some { start 5 0x0530 3 4 0 with halted := true } := by
  decide
/-- R190: the image in the low cells, a zero word unlisted. -/
theorem test_load :
    (match load [0x4001, 0, 0x2083] with | .next t => some t.mem | .fault _ => none | .refused _ => none) =
      some [(0, 0x4001), (2, 0x2083)] := by decide

/-! ### Witnesses: the hypotheses of each statement are met -/

theorem witness_AddWritesTheWrappedSum : (0x0530 : Word) &&& 0xE00F = 0x0000 := by decide
theorem witness_SubWritesTheWrappedDifference : (0x0531 : Word) &&& 0xE00F = 0x0001 := by decide
theorem witness_OrWritesTheBitwiseOr : (0x0532 : Word) &&& 0xE00F = 0x0002 := by decide
theorem witness_AndWritesTheBitwiseAnd : (0x0533 : Word) &&& 0xE00F = 0x0003 := by decide
theorem witness_SltWritesTheUnsignedComparison :
    (0x0537 : Word) &&& 0xE00C = 0x0004 ∧ (0x0539 : Word) &&& 0xE00F = 0x0009 ∧
      (0x053B : Word) &&& 0xE00E = 0x000A ∧ (0x053F : Word) &&& 0xE00C = 0x000C := by decide
theorem witness_JrSetsThePcToTheRegister :
    (0x1FF8 : Word) &&& 0xE00F = 0x0008 ∧
      (8191 : Addr).val = ((start 0 0x0408 0xFFFF 0 0).readReg 1).toNat % 8192 := by decide
theorem witness_AddiWritesTheWrappedSum : (0x24FF : Word) &&& 0xE000 = 0x2000 := by decide
theorem witness_SltiWritesTheUnsignedComparison : (0xE57F : Word) &&& 0xE000 = 0xE000 := by decide
/-- Both cases at the top of the address range: pc 8191 halts on `j 8191`, pc 8192 does not on `j 0`. -/
theorem witness_JJumpsOrHalts :
    (0x5FFF : Word) &&& 0xE000 = 0x4000 ∧ ((8191 : Imm13).toNat : Int) = (start 8191 0x5FFF 0 0 0).pc ∧
      ((0 : Imm13).toNat : Int) ≠ (start 8192 0x4000 0 0 0).pc := by decide
/-- The range of the exact link at both ends. -/
theorem witness_JalLinksAndJumps :
    (0x600A : Word) &&& 0xE000 = 0x6000 ∧ 0 ≤ (start (-1) 0x600A 0 0 0).pc + 1 ∧
      (start 65534 0x600A 0 0 0).pc + 1 ≤ 65535 := by decide
theorem witness_JeqBranchesOnEquality : (0xC502 : Word) &&& 0xE000 = 0xC000 := by decide
theorem witness_LwLoadsTheCell : (0x8500 : Word) &&& 0xE000 = 0x8000 := by decide
theorem witness_SwStoresTheRegister :
    (0xA17F : Word) &&& 0xE000 = 0xA000 ∧ (8190 : Addr) ≠ wrap (((start 0 0xA17F 0 0 0).readReg 0).toNat + signed7 127) := by
  decide
theorem witness_RegisterWriteIsDiscardedAtZero : (7 : RegIdx) ≠ 0 ∧ (1 : RegIdx) ≠ 7 := by decide
theorem witness_MemoryWriteSetsOneCell : wrap (start 8192 0 0 0 0).pc = 0 ∧ (1 : Addr) ≠ 0 := by decide
theorem witness_EveryAddressWraps :
    ((8191 : Addr).val : Int) = (start (-1) 0 0 0 0).pc % 8192 ∧
      ((0 : Addr).val : Int) = (((start 0 0 0xFFFF 0 0).readReg 1).toNat + signed7 1) % 8192 := by decide
theorem witness_FetchWrapsThePc : (start 8191 0 0 0 0).pc = 8191 ∧ (start (-1) 0 0 0 0).pc = -1 := by decide
/-- Every clause of the opcode map is met by a word. -/
theorem witness_OpcodeAndFuncSelectTheInstruction :
    ([0x0530, 0x0531, 0x0532, 0x0533, 0x0538, 0x053F] : List Word).map (fun w => ((extractFields w).opcode, (extractFields w).func)) =
      [(0, 0), (0, 1), (0, 2), (0, 3), (0, 8), (0, 15)] ∧
    ([0x2000, 0x4000, 0x6000, 0x8000, 0xA000, 0xC000, 0xE000] : List Word).map (fun w => (extractFields w).opcode) =
      [1, 2, 3, 4, 5, 6, 7] := by decide
theorem witness_OpcodeRowsPartitionTheWords : (⟨"jr", 0xE00F, 0x0008⟩ : OpcodeRow).fits 0x1FF8 = true := by decide
theorem witness_DecodeOfEncodeIsTheInstruction : (Instr.slt 1 2 3 15).wf = true := by decide
theorem witness_EncodeOfDecodeIsTheWord : decode 0x1FF8 = .instr (.jr 7) ∧ (Instr.jr 7).mnemonic = "jr" := by decide
theorem witness_StepRunsTheDecodedInstruction :
    (start 8192 0x4000 0 0 0).halted = false ∧
      decode ((start 8192 0x4000 0 0 0).memRead (wrap (start 8192 0x4000 0 0 0).pc)) = .instr (.j 0) := by decide
theorem witness_TheTableWordIsFetchedNext : decodeTableWord 16 0x24FF = some (.addi 1 1 127) := by decide
theorem witness_TheHaltedStateIsFinal : (start 5 0x4005 0 0 0).halt.halted = true := by decide
/-- The three clauses: pc in range and equal, in range and not equal, and just outside at both ends. -/
theorem witness_HaltCheckComparesTheUnreducedPc :
    decode (start 8191 0x5FFF 0 0 0).fetch = .instr (.j 8191) ∧ ((8191 : Imm13).toNat : Int) = (start 8191 0x5FFF 0 0 0).pc ∧
      ((5 : Imm13).toNat : Int) ≠ (start 0 0x4005 0 0 0).pc ∧
      (start (-1) 0x5FFF 0 0 0).pc < 0 ∧ (wrap (start (-1) 0x5FFF 0 0 0).pc).val = (8191 : Imm13).toNat ∧
      8191 < (start 8192 0x4000 0 0 0).pc ∧ (wrap (start 8192 0x4000 0 0 0).pc).val = (0 : Imm13).toNat := by decide

/-- A transition into the halted state, and one that is not. -/
theorem witness_OnlyASelfJumpHalts :
    Transition (start 5 0x4005 0 0 0) (start 5 0x4005 0 0 0).halt ∧
      Transition (start 0 0x4005 0 0 0) ((start 0 0x4005 0 0 0).setPc 5) :=
  ⟨⟨rfl, step_of_decode _ (.j 5) rfl (by decide)⟩, ⟨rfl, step_of_decode _ (.j 5) rfl (by decide)⟩⟩

theorem witness_TheStepIsTotal : State.reset.halted = false := rfl

theorem witness_NothingElseIsWritten :
    exec (.add 1 2 3) (start 0 0 3 4 0) = .next ((start 0 0 3 4 0).writeReg 3 7).advance ∧
      destReg (.add 1 2 3) ≠ some 1 ∧ storeCell (start 0 0 3 4 0) (.add 1 2 3) ≠ some 0 := ⟨rfl, by decide, by decide⟩

/-- Two states that differ in a register that `lw` does not read. -/
theorem witness_NothingElseIsRead :
    (start 0 0x8500 10 0 1).pc = (start 0 0x8500 10 0 2).pc ∧
      (∀ r ∈ sourceRegs (.lw 1 2 0), (start 0 0x8500 10 0 1).readReg r = (start 0 0x8500 10 0 2).readReg r) ∧
      (∀ a, loadCell (start 0 0x8500 10 0 1) (.lw 1 2 0) = some a →
        (start 0 0x8500 10 0 1).memRead a = (start 0 0x8500 10 0 2).memRead a) :=
  ⟨rfl, by decide, fun _ _ => rfl⟩

theorem witness_OperandsAreReadBeforeTheWrite : (1 : RegIdx) ≠ 0 ∧ sltFunc 4 = true := by decide
theorem witness_AZeroDestinationOnlyAdvances : destReg (.lw 1 0 3) = some 0 := by decide

/-- Program P5's first word, followed by the cell it overwrites. -/
theorem witness_AStoreIsSeenByTheNextFetch :
    (start 0 0xA001 0 0 0).halted = false ∧ decode (start 0 0xA001 0 0 0).fetch = .instr (.sw 0 0 1) ∧
      (start 0 0xA001 0 0 0).effAddr 0 1 = wrap ((start 0 0xA001 0 0 0).pc + 1) ∧
      decode ((start 0 0xA001 0 0 0).readReg 0) = .instr (.add 0 0 0) := by decide

theorem witness_JrReturnsFromJal :
    0 ≤ (start 2 0x600A 0 0 0).pc + 1 ∧ (start 2 0x600A 0 0 0).pc + 1 ≤ 65535 ∧
      exec (.jal 10) (start 2 0x600A 0 0 0) = .next (((start 2 0x600A 0 0 0).writeReg 7 3).setPc 10) ∧
      (State.reset.writeReg 7 3).readReg 7 = (((start 2 0x600A 0 0 0).writeReg 7 3).setPc 10).readReg 7 :=
  ⟨by decide, by decide, rfl, rfl⟩

/-- Both sides of the bound on an image's length. -/
theorem witness_LoadIsAFullReset :
    (List.replicate 8192 (1 : Word)).length ≤ 8192 ∧ 8192 < (List.replicate 8193 (1 : Word)).length := by
  simp only [List.length_replicate]
  decide

/-- Reset meets the invariant and its step answers a next state. -/
theorem witness_EveryStepKeepsTheInvariant :
    State.reset.Inv ∧ step State.reset = .next State.reset.advance :=
  ⟨⟨by decide, fun h => by cases h⟩, step_of_decode _ (.add 0 0 0) rfl (by decide)⟩

/-- A halted state that meets the invariant. -/
theorem witness_halted_state_meets_the_invariant : (start 5 0x4005 0 0 0).halt.Inv :=
  ⟨by decide, fun _ => ⟨5, by decide, by decide⟩⟩

/-- A run of one step to its end. -/
theorem witness_ARunEndsOnASelfJump :
    (start 5 0x4005 0 0 0).halted = false ∧ EndsIn 1 (start 5 0x4005 0 0 0) (start 5 0x4005 0 0 0).halt :=
  ⟨rfl, .more 0 _ _ _ witness_OnlyASelfJumpHalts.1 (.start _), rfl⟩

theorem witness_ARunHasOneEnd :
    EndsIn 1 (start 5 0x4005 0 0 0) (start 5 0x4005 0 0 0).halt := witness_ARunEndsOnASelfJump.2

end Sys2Proof.Tests
end

section
/-! PROOFS. 10_state.md. What every instruction does is said once, as `State.effect`; `exec_eq_effect` ties it to
`exec`, its field lemmas say what it changes and what it leaves, and the statements of the family follow from these. -/

namespace Sys2Proof.Machine

/-! ### Arithmetic and decoding -/

/-- `wrap` has period 8192 (10_state.md R29). -/
theorem wrap_add_mul (x k : Int) : wrap (x + 8192 * k) = wrap x := by
  simp [wrap]

/-- The composition of `jeq` (30_encoding.md R69) is the sign extension of R67, for each of the 128 fields. -/
theorem branchOffset_eq_signed7 : ∀ imm7 : Imm7, branchOffset imm7 = signed7 imm7 := by decide

theorem sameWord_iff (a b : Word) : sameWord a b = true ↔ a = b := beq_iff_eq

/-- A 3-bit opcode always matches one of the eight rows of 30_encoding.md R71. -/
theorem exists_decode_eq_instr (w : Word) : ∃ i, decode w = .instr i := by
  have hop : (extractFields w).opcode.toNat < 8 := (extractFields w).opcode.isLt
  unfold decode selectInstr
  interval_cases (extractFields w).opcode.toNat <;> exact ⟨_, rfl⟩

/-! ### The effect of an instruction -/

/-- Writes the destination register, if there is one. -/
def State.writeDest (s : State) : Option RegIdx → Word → State
  | some rd, v => s.writeReg rd v
  | none, _ => s

/-- Writes the store cell, if there is one. -/
def State.writeStore (s : State) : Option Addr → Word → State
  | some a, v => s.memWrite a v
  | none, _ => s

/-- The word an instruction writes, to its destination register or to its store cell. The jumps that write neither
have 0 here, which `State.effect` does not use. -/
def State.result (s : State) : Instr → Word
  | .add rA rB _ => mask16 (uint (s.readReg rA) + uint (s.readReg rB))
  | .sub rA rB _ => mask16 (uint (s.readReg rA) - uint (s.readReg rB))
  | .or rA rB _ => s.readReg rA ||| s.readReg rB
  | .and rA rB _ => s.readReg rA &&& s.readReg rB
  | .slt rA rB _ _ => setLess (s.readReg rA) (s.readReg rB)
  | .addi rA _ imm7 => mask16 (uint (s.readReg rA) + signed7 imm7)
  | .slti rA _ imm7 => setLess (s.readReg rA) (sext16 imm7)
  | .lw rA _ imm7 => s.memRead (s.effAddr rA imm7)
  | .sw _ rB _ => s.readReg rB
  | .jal _ => mask16 (s.pc + 1)
  | .jr _ => 0
  | .j _ => 0
  | .jeq _ _ _ => 0

/-- The halt check fires on the instruction: only a `j` is tested (40_engine.md R94). -/
def State.haltsOn (s : State) : Instr → Bool
  | .j imm13 => s.haltCheck imm13
  | _ => false

/-- The state an instruction leaves, field by field, from the tables of 10_state.md R25 and R28. -/
def State.effect (s : State) (i : Instr) : State where
  pc := nextPc s i
  regs := (s.writeDest (destReg i) (s.result i)).regs
  mem := (s.writeStore (storeCell s i) (s.result i)).mem
  halted := s.haltsOn i || s.halted

/-- An instruction with a destination writes its result there and sets the pc. -/
theorem effect_of_dest (s : State) (i : Instr) (rd : RegIdx) (hd : destReg i = some rd) (hs : storeCell s i = none)
    (hh : s.haltsOn i = false) : s.effect i = (s.writeReg rd (s.result i)).setPc (nextPc s i) := by
  simp [State.effect, State.setPc, State.writeDest, State.writeStore, hd, hs, hh]

/-- An instruction whose new pc is pc + 1 ends in the write-back of 40_engine.md R97. -/
theorem effect_of_writeBack (s : State) (i : Instr) (rd : RegIdx) (hd : destReg i = some rd)
    (hs : storeCell s i = none) (hh : s.haltsOn i = false) (hpc : nextPc s i = s.pc + 1) :
    s.effect i = (s.writeReg rd (s.result i)).advance := by
  rw [effect_of_dest s i rd hd hs hh, State.advance, writeReg_pc, hpc]

/-- An instruction that writes neither a register nor a cell, and does not halt, sets the pc alone. -/
theorem effect_of_jump (s : State) (i : Instr) (hd : destReg i = none) (hs : storeCell s i = none)
    (hh : s.haltsOn i = false) : s.effect i = s.setPc (nextPc s i) := by
  simp [State.effect, State.setPc, State.writeDest, State.writeStore, hd, hs, hh]

/-- A `j` to its own pc sets `halted` and changes nothing else (40_engine.md R93). -/
theorem effect_selfJump (s : State) (imm13 : Imm13) (h : (imm13.toNat : Int) = s.pc) :
    s.effect (.j imm13) = s.halt := by
  have hcheck : s.haltsOn (.j imm13) = true := (haltCheck_iff s imm13).mpr h
  simp [State.effect, State.halt, State.writeDest, State.writeStore, hcheck, nextPc, h, destReg, storeCell]

theorem exec_j_eq_effect (s : State) (imm13 : Imm13) : exec (.j imm13) s = .next (s.effect (.j imm13)) := by
  rw [exec_j]
  by_cases h : s.haltCheck imm13 = true
  · rw [if_pos h, effect_selfJump s imm13 ((haltCheck_iff s imm13).mp h)]
  · rw [if_neg h, effect_of_jump s (.j imm13) rfl rfl (Bool.eq_false_of_not_eq_true h)]
    rfl

theorem exec_jeq_eq_effect (s : State) (rA rB : RegIdx) (imm7 : Imm7) :
    exec (.jeq rA rB imm7) s = .next (s.effect (.jeq rA rB imm7)) := by
  rw [exec_jeq, branchOffset_eq_signed7, effect_of_jump s (.jeq rA rB imm7) rfl rfl rfl]
  by_cases h : s.readReg rA = s.readReg rB
  · simp [sameWord_iff, nextPc, h]
  · simp [sameWord_iff, nextPc, h, State.advance]

/-- Every instruction completes in every state, and leaves its effect. -/
theorem exec_eq_effect (i : Instr) (s : State) : exec i s = .next (s.effect i) := by
  cases i with
  | add | sub | or | and | slt | addi | slti | lw =>
    exact congrArg Host.Outcome.next (Eq.symm (effect_of_writeBack s _ _ rfl rfl rfl rfl))
  | jal imm13 => exact congrArg Host.Outcome.next (effect_of_dest s (.jal imm13) 7 rfl rfl rfl).symm
  | sw => rfl
  | jr rA => exact congrArg Host.Outcome.next (effect_of_jump s (.jr rA) rfl rfl rfl).symm
  | j imm13 => exact exec_j_eq_effect s imm13
  | jeq rA rB imm7 => exact exec_jeq_eq_effect s rA rB imm7

/-- A step of a block that is not halted leaves the effect of the decoded instruction (40_engine.md R91 to R95). -/
theorem exists_step_eq_effect (s : State) (h : s.halted = false) :
    ∃ i, decode s.fetch = .instr i ∧ step s = .next (s.effect i) := by
  obtain ⟨i, hi⟩ := exists_decode_eq_instr s.fetch
  exact ⟨i, hi, (step_of_decode s i h hi).trans (exec_eq_effect i s)⟩

/-! ### What the effect changes, and its frame -/

@[simp] theorem effect_pc (s : State) (i : Instr) : (s.effect i).pc = nextPc s i := rfl
@[simp] theorem effect_halted (s : State) (i : Instr) : (s.effect i).halted = (s.haltsOn i || s.halted) := rfl

theorem effect_readReg (s : State) (i : Instr) (r : RegIdx) :
    (s.effect i).readReg r = (s.writeDest (destReg i) (s.result i)).readReg r := rfl

theorem effect_memRead (s : State) (i : Instr) (a : Addr) :
    (s.effect i).memRead a = (s.writeStore (storeCell s i) (s.result i)).memRead a := rfl

theorem effect_readReg_dest (s : State) (i : Instr) (r : RegIdx) (h : destReg i = some r) :
    (s.effect i).readReg r = if r = 0 then 0 else s.result i := by
  rw [effect_readReg, h, State.writeDest, readReg_writeReg]
  by_cases hr : r = 0 <;> simp [hr]

theorem effect_readReg_of_ne (s : State) (i : Instr) (r : RegIdx) (h : destReg i ≠ some r) :
    (s.effect i).readReg r = s.readReg r := by
  rw [effect_readReg]
  cases hd : destReg i with
  | none => rfl
  | some rd => exact readReg_writeReg_of_ne s rd r _ fun hr => h (hr ▸ hd)

theorem effect_memRead_storeCell (s : State) (i : Instr) (a : Addr) (h : storeCell s i = some a) :
    (s.effect i).memRead a = s.result i := by
  rw [effect_memRead, h, State.writeStore, memRead_memWrite_self]

theorem effect_memRead_of_ne (s : State) (i : Instr) (a : Addr) (h : storeCell s i ≠ some a) :
    (s.effect i).memRead a = s.memRead a := by
  rw [effect_memRead]
  cases hs : storeCell s i with
  | none => rfl
  | some b => exact memRead_memWrite_of_ne s b a _ fun ha => h (ha ▸ hs)

theorem effect_mem_wf (s : State) (i : Instr) (h : s.mem.wf) : (s.effect i).mem.wf := by
  show (s.writeStore (storeCell s i) (s.result i)).mem.wf
  cases storeCell s i with
  | none => exact h
  | some a => exact Memory.wf_write s.mem a _ h

/-- The halt check fires on a `j` to the unreduced pc and on nothing else (40_engine.md R93, R94). -/
theorem haltsOn_iff (s : State) (i : Instr) :
    s.haltsOn i = true ↔ ∃ imm13 : Imm13, i = .j imm13 ∧ (imm13.toNat : Int) = s.pc := by
  cases i with
  | j imm13 => simp [State.haltsOn, haltCheck_iff]
  | _ => simp [State.haltsOn]

/-! ### What the effect depends on (10_state.md R25) -/

section Reads

variable {s s' : State} {i : Instr}

theorem effAddr_congr {rA : RegIdx} (imm7 : Imm7) (h : s.readReg rA = s'.readReg rA) :
    s.effAddr rA imm7 = s'.effAddr rA imm7 := by
  rw [State.effAddr, State.effAddr, h]

theorem haltsOn_congr (hpc : s.pc = s'.pc) : s.haltsOn i = s'.haltsOn i := by
  cases i with
  | j imm13 => simp [State.haltsOn, State.haltCheck, hpc]
  | _ => rfl

theorem storeCell_congr (hregs : ∀ r ∈ sourceRegs i, s.readReg r = s'.readReg r) :
    storeCell s i = storeCell s' i := by
  cases i with
  | sw rA rB imm7 => exact congrArg some (effAddr_congr imm7 (hregs rA (by simp [sourceRegs])))
  | _ => rfl

theorem nextPc_congr (hpc : s.pc = s'.pc) (hregs : ∀ r ∈ sourceRegs i, s.readReg r = s'.readReg r) :
    nextPc s i = nextPc s' i := by
  cases i with
  | jr | jeq => simp_all [nextPc, sourceRegs]
  | _ => simp [nextPc, hpc]

theorem result_congr (hpc : s.pc = s'.pc) (hregs : ∀ r ∈ sourceRegs i, s.readReg r = s'.readReg r)
    (hcell : ∀ a, loadCell s i = some a → s.memRead a = s'.memRead a) : s.result i = s'.result i := by
  cases i with
  | lw rA rB imm7 =>
    have haddr := effAddr_congr imm7 (hregs rA (by simp [sourceRegs]))
    exact (hcell _ rfl).trans (congrArg s'.memRead haddr)
  | jal => simp [State.result, hpc]
  | _ => simp_all [State.result, sourceRegs]

end Reads

/-! ### The invariant -/

theorem haltedOnSelfJump_of_not_halted (s : State) (h : s.halted = false) : s.haltedOnSelfJump :=
  fun ht => absurd ht (by simp [h])

/-- Halting on the fetched self-jump leaves the state standing on it. -/
theorem haltedOnSelfJump_halt (s : State) (imm13 : Imm13) (hd : decode s.fetch = .instr (.j imm13))
    (h : (imm13.toNat : Int) = s.pc) : s.halt.haltedOnSelfJump :=
  fun _ => ⟨imm13, hd, h.symm⟩

/-- An instruction run from a block that is not halted leaves a state halted only on the self-jump it fetched. -/
theorem effect_haltedOnSelfJump (s : State) (i : Instr) (hs : s.halted = false) (hd : decode s.fetch = .instr i) :
    (s.effect i).haltedOnSelfJump := by
  cases hh : s.haltsOn i with
  | false => exact haltedOnSelfJump_of_not_halted _ (by simp [hh, hs])
  | true =>
    obtain ⟨imm13, rfl, hpc⟩ := (haltsOn_iff s i).mp hh
    rw [effect_selfJump s imm13 hpc]
    exact haltedOnSelfJump_halt s imm13 hd hpc

/-! ### The statements -/

/-- Settles O45: a halted state is left as it is; any other takes the effect of the decoded instruction, which keeps
memory canonical and halts only on the fetched self-jump. -/
theorem everyStepKeepsTheInvariant : Obligations.EveryStepKeepsTheInvariant := by
  intro s t hinv hstep
  cases hs : s.halted with
  | true =>
    rw [step_of_halted s hs] at hstep
    injection hstep with hst
    exact hst ▸ hinv
  | false =>
    obtain ⟨i, hd, hi⟩ := exists_step_eq_effect s hs
    obtain ⟨hwf, -⟩ := hinv
    rw [hi] at hstep
    injection hstep with hst
    exact hst ▸ ⟨effect_mem_wf s i hwf, effect_haltedOnSelfJump s i hs hd⟩

/-- Settles O36, by the frame of the effect; only a `j` meets the halt check. -/
theorem nothingElseIsWritten : Obligations.NothingElseIsWritten := by
  intro i s t hexec
  rw [exec_eq_effect] at hexec
  injection hexec with hst
  subst hst
  refine ⟨effect_readReg_of_ne s i, effect_memRead_of_ne s i, fun hj => ?_⟩
  have hh : s.haltsOn i ≠ true := by
    rw [Ne, haltsOn_iff]
    rintro ⟨imm13, rfl, -⟩
    exact hj rfl
  simp [hh]

/-- Settles O37: each field of the effect depends only on what the instruction reads. -/
theorem nothingElseIsRead : Obligations.NothingElseIsRead := by
  intro i s s' hpc hregs hcell
  have hresult := result_congr hpc hregs hcell
  have hstore := storeCell_congr hregs
  refine ⟨_, _, exec_eq_effect i s, exec_eq_effect i s', nextPc_congr hpc hregs, fun hh => ?_, fun r hr => ?_,
    hstore, fun a ha => ?_⟩
  · rw [effect_halted, effect_halted, haltsOn_congr hpc, hh]
  · rw [effect_readReg_dest s i r hr, effect_readReg_dest s' i r hr, hresult]
  · rw [effect_memRead_storeCell s i a ha, effect_memRead_storeCell s' i a (hstore ▸ ha), hresult]

/-- Settles O14. -/
theorem registerZeroReadsZero : Obligations.RegisterZeroReadsZero :=
  ⟨readReg_zero, fun i s => ⟨s.effect i, exec_eq_effect i s, readReg_zero _⟩⟩

/-- Settles O15, by the laws of a register write. -/
theorem registerWriteIsDiscardedAtZero : Obligations.RegisterWriteIsDiscardedAtZero := fun s v =>
  ⟨writeReg_zero s v, fun r hr => ⟨readReg_writeReg_self s r v hr, fun k hk => readReg_writeReg_of_ne s r k v hk,
    writeReg_pc s r v, fun a => writeReg_memRead s r v a, writeReg_halted s r v⟩⟩

/-- Settles O19, by the period of `wrap`. -/
theorem fetchWrapsThePc : Obligations.FetchWrapsThePc := by
  intro s
  refine ⟨fun h => ⟨?_, ?_⟩, fun h => ?_, fun k => ?_⟩
  · rw [advance_pc, h]; rfl
  · rw [State.fetch, advance_pc, advance_memRead, h]; rfl
  · rw [State.fetch, h]; rfl
  · rw [State.fetch, State.fetch, setPc_pc, setPc_memRead, wrap_add_mul]

/-- Settles O35: the effect's pc is the table's. -/
theorem everyInstructionAdvancesThePcByTheTable : Obligations.EveryInstructionAdvancesThePcByTheTable :=
  ⟨fun i s => ⟨s.effect i, exec_eq_effect i s, effect_pc s i⟩, fun s => ⟨s.advance, rfl, advance_pc s⟩⟩

/-- Settles O44: at reset no cell is listed and the block is not halted. -/
theorem resetMeetsTheInvariant : Obligations.ResetMeetsTheInvariant :=
  ⟨⟨List.Pairwise.nil, fun _ hc => nomatch hc⟩, haltedOnSelfJump_of_not_halted _ rfl⟩

end Sys2Proof.Machine
end

section
/-! PROOFS. 20_memory.md. A write is seen by the next access, the fetch included (R44, R54), and every address is
reduced by `wrap` (R42). What `lw` and `sw` do is taken from `State.effect`. -/

namespace Sys2Proof.Machine

/-- The cell whose address is x mod 8192 is the cell `wrap` gives (20_memory.md R42). -/
theorem wrap_eq_of_val (x : Int) (a : Addr) (h : (a.val : Int) = x % 8192) : wrap x = a :=
  Fin.ext (Int.ofNat_inj.mp ((wrap_val x).trans h.symm))

/-- A fetch from a cell that was just written sees the new value (20_memory.md R44). -/
theorem fetch_memWrite_of_eq (s : State) (a : Addr) (v : Word) (h : wrap s.pc = a) : (s.memWrite a v).fetch = v := by
  rw [State.fetch, memWrite_pc, h, memRead_memWrite_self]

/-- An instruction that stores to the cell of its own new pc leaves its result there to be fetched (20_memory.md
R54). -/
theorem effect_fetch_of_storeCell (s : State) (i : Instr) (h : storeCell s i = some (wrap (nextPc s i))) :
    (s.effect i).fetch = s.result i :=
  effect_memRead_storeCell s i _ h

/-- Settles O40: the store's effect is not halted, and what it leaves to be fetched is the stored word. -/
theorem aStoreIsSeenByTheNextFetch : Obligations.AStoreIsSeenByTheNextFetch := by
  intro s rA rB imm7 i hs hsw haddr hword
  have hfetch : (s.effect (.sw rA rB imm7)).fetch = s.readReg rB :=
    effect_fetch_of_storeCell s (.sw rA rB imm7) (congrArg some haddr)
  have hnext : (s.effect (.sw rA rB imm7)).halted = false := (effect_halted s _).trans hs
  exact ⟨s.effect (.sw rA rB imm7), (step_of_decode s _ hs hsw).trans (exec_eq_effect _ s),
    step_of_decode _ i hnext (hfetch ▸ hword)⟩

/-- Settles O16, by the laws of a memory write. -/
theorem memoryWriteSetsOneCell : Obligations.MemoryWriteSetsOneCell := fun s a v =>
  ⟨memRead_memWrite_self s a v, fun b hb => memRead_memWrite_of_ne s a b v hb, fun r => memWrite_readReg s a v r,
    memWrite_pc s a v, memWrite_halted s a v, fetch_memWrite_of_eq s a v⟩

/-- Settles O17: the cell named by the arithmetic is the one `wrap` gives, so it is the cell fetched, loaded and
stored to. -/
theorem everyAddressWraps : Obligations.EveryAddressWraps := by
  refine ⟨wrap_val, fun s a => ⟨fun hpc => ?_, fun rA rB imm7 ha => ?_⟩⟩
  · rw [State.fetch, wrap_eq_of_val s.pc a hpc]
  · have haddr : s.effAddr rA imm7 = a := wrap_eq_of_val _ a ha
    have hload : s.result (.lw rA rB imm7) = s.memRead a := congrArg s.memRead haddr
    have hstore : storeCell s (.sw rA rB imm7) = some a := congrArg some haddr
    refine ⟨⟨_, exec_eq_effect (.lw rA rB imm7) s, fun hB => ?_⟩, _, exec_eq_effect (.sw rA rB imm7) s,
      effect_memRead_storeCell s _ a hstore, fun b hb => effect_memRead_of_ne s _ b fun hsb => ?_⟩
    · rw [effect_readReg_dest s _ rB rfl, if_neg hB, hload]
    · exact hb (Option.some.inj (hsb.symm.trans hstore))

end Sys2Proof.Machine
end

section
/-! PROOFS. 30_encoding.md. What the decoder selects is said once per opcode and per func, and once as the case
analysis `selectInstr_elim`; the encoder's forms put the extracted fields back together. The statements of the family
follow from these. -/

namespace Sys2Proof

/-! ### The selection (30_encoding.md R71, R72) -/

section Selection

variable {f : Fields}

theorem selectFunc_add (h : f.func = 0) : selectFunc f = .add f.rA f.rB f.rC := by simp [selectFunc, h]
theorem selectFunc_sub (h : f.func = 1) : selectFunc f = .sub f.rA f.rB f.rC := by simp [selectFunc, h]
theorem selectFunc_or (h : f.func = 2) : selectFunc f = .or f.rA f.rB f.rC := by simp [selectFunc, h]
theorem selectFunc_and (h : f.func = 3) : selectFunc f = .and f.rA f.rB f.rC := by simp [selectFunc, h]
theorem selectFunc_jr (h : f.func = 8) : selectFunc f = .jr f.rA := by simp [selectFunc, h]

theorem sltFunc_iff_mem : ∀ func : Func,
    sltFunc func = true ↔ func ∈ ([4, 5, 6, 7, 9, 10, 11, 12, 13, 14, 15] : List Func) := by decide

theorem selectFunc_slt (h : sltFunc f.func = true) : selectFunc f = .slt f.rA f.rB f.rC f.func := by
  have hf := (sltFunc_iff_mem f.func).mp h
  simp only [List.mem_cons, List.not_mem_nil, or_false] at hf
  rcases hf with hf | hf | hf | hf | hf | hf | hf | hf | hf | hf | hf <;> simp [selectFunc, hf]

theorem selectInstr_func (h : f.opcode = 0) : selectInstr f = .instr (selectFunc f) := by simp [selectInstr, h]
theorem selectInstr_addi (h : f.opcode = 1) : selectInstr f = .instr (.addi f.rA f.rB f.imm7) := by
  simp [selectInstr, h]
theorem selectInstr_j (h : f.opcode = 2) : selectInstr f = .instr (.j f.imm13) := by simp [selectInstr, h]
theorem selectInstr_jal (h : f.opcode = 3) : selectInstr f = .instr (.jal f.imm13) := by simp [selectInstr, h]
theorem selectInstr_lw (h : f.opcode = 4) : selectInstr f = .instr (.lw f.rA f.rB f.imm7) := by simp [selectInstr, h]
theorem selectInstr_sw (h : f.opcode = 5) : selectInstr f = .instr (.sw f.rA f.rB f.imm7) := by simp [selectInstr, h]
theorem selectInstr_jeq (h : f.opcode = 6) : selectInstr f = .instr (.jeq f.rA f.rB f.imm7) := by
  simp [selectInstr, h]
theorem selectInstr_slti (h : f.opcode = 7) : selectInstr f = .instr (.slti f.rA f.rB f.imm7) := by
  simp [selectInstr, h]

theorem opcode_cases : ∀ op : BitVec 3,
    op = 0 ∨ op = 1 ∨ op = 2 ∨ op = 3 ∨ op = 4 ∨ op = 5 ∨ op = 6 ∨ op = 7 := by decide

theorem func_cases : ∀ func : Func,
    func = 0 ∨ func = 1 ∨ func = 2 ∨ func = 3 ∨ func = 8 ∨ sltFunc func = true := by decide

/-- Case analysis on the instruction that func selects. -/
theorem selectFunc_elim {P : Instr → Prop} (add : f.func = 0 → P (.add f.rA f.rB f.rC))
    (sub : f.func = 1 → P (.sub f.rA f.rB f.rC)) (or : f.func = 2 → P (.or f.rA f.rB f.rC))
    (and : f.func = 3 → P (.and f.rA f.rB f.rC)) (jr : f.func = 8 → P (.jr f.rA))
    (slt : sltFunc f.func = true → P (.slt f.rA f.rB f.rC f.func)) : P (selectFunc f) := by
  obtain h | h | h | h | h | h := func_cases f.func
  · exact selectFunc_add h ▸ add h
  · exact selectFunc_sub h ▸ sub h
  · exact selectFunc_or h ▸ or h
  · exact selectFunc_and h ▸ and h
  · exact selectFunc_jr h ▸ jr h
  · exact selectFunc_slt h ▸ slt h

/-- Case analysis on the instruction that opcode and func select: there is one, and it is of one of the thirteen
kinds. -/
theorem selectInstr_elim {P : Instr → Prop} (func : f.opcode = 0 → P (selectFunc f))
    (addi : f.opcode = 1 → P (.addi f.rA f.rB f.imm7)) (j : f.opcode = 2 → P (.j f.imm13))
    (jal : f.opcode = 3 → P (.jal f.imm13)) (lw : f.opcode = 4 → P (.lw f.rA f.rB f.imm7))
    (sw : f.opcode = 5 → P (.sw f.rA f.rB f.imm7)) (jeq : f.opcode = 6 → P (.jeq f.rA f.rB f.imm7))
    (slti : f.opcode = 7 → P (.slti f.rA f.rB f.imm7)) : ∃ i, selectInstr f = .instr i ∧ P i := by
  obtain h | h | h | h | h | h | h | h := opcode_cases f.opcode
  · exact ⟨_, selectInstr_func h, func h⟩
  · exact ⟨_, selectInstr_addi h, addi h⟩
  · exact ⟨_, selectInstr_j h, j h⟩
  · exact ⟨_, selectInstr_jal h, jal h⟩
  · exact ⟨_, selectInstr_lw h, lw h⟩
  · exact ⟨_, selectInstr_sw h, sw h⟩
  · exact ⟨_, selectInstr_jeq h, jeq h⟩
  · exact ⟨_, selectInstr_slti h, slti h⟩

theorem selectFunc_wf : (selectFunc f).wf = true :=
  selectFunc_elim (P := fun i => i.wf = true) (fun _ => rfl) (fun _ => rfl) (fun _ => rfl) (fun _ => rfl)
    (fun _ => rfl) id

end Selection

/-- Every word decodes to a well-formed instruction (30_encoding.md R74). -/
theorem exists_decode_eq_wf (w : Word) : ∃ i, decode w = .instr i ∧ i.wf = true :=
  selectInstr_elim (fun _ => selectFunc_wf) (fun _ => rfl) (fun _ => rfl) (fun _ => rfl) (fun _ => rfl)
    (fun _ => rfl) (fun _ => rfl) (fun _ => rfl)

/-! ### The encoder on the extracted fields (30_encoding.md R78) -/

section Encoder

variable {w : Word}

theorem encR_extractFields {func : Func} (h : (extractFields w).opcode = 0) (hf : (extractFields w).func = func) :
    encR (extractFields w).rA (extractFields w).rB (extractFields w).rC func = w := by
  have hop : w.toNat / 8192 = 0 := (opcode_toNat w).symm.trans (congrArg BitVec.toNat h)
  apply BitVec.eq_of_toNat_eq
  rw [← hf, encR_toNat, rA_val, rB_val, rC_val, func_toNat]
  omega

theorem encI_extractFields {op : BitVec 3} (h : (extractFields w).opcode = op) :
    encI op (extractFields w).rA (extractFields w).rB (extractFields w).imm7 = w := by
  apply BitVec.eq_of_toNat_eq
  rw [← h, encI_toNat, opcode_toNat, rA_val, rB_val, imm7_toNat]
  omega

theorem encJ_extractFields {op : BitVec 3} (h : (extractFields w).opcode = op) :
    encJ op (extractFields w).imm13 = w := by
  apply BitVec.eq_of_toNat_eq
  rw [← h, encJ_toNat, opcode_toNat, imm13_toNat]
  omega

theorem regBits_regOf (b : BitVec 3) : regBits (regOf b) = b :=
  BitVec.eq_of_toNat_eq (by rw [regBits_toNat, regOf_val])

/-- The mask that clears bits 9–4 keeps the opcode, rA and the func (30_encoding.md R73). -/
theorem and_maskJr (w : Word) : w &&& 0xFC0F =
    (extractFields w).opcode ++ regBits (extractFields w).rA ++ 0#3 ++ 0#3 ++ (extractFields w).func := by
  refine BitVec.eq_of_getLsbD_eq fun i hi => ?_
  simp only [extractFields, regBits_regOf, BitVec.getLsbD_append, BitVec.getLsbD_and]
  interval_cases i <;> simp

/-- A `jr` is written with bits 9–4 clear (30_encoding.md R76; log entry 10). -/
theorem encR_jr_extractFields (hop : (extractFields w).opcode = 0) (hf : (extractFields w).func = 8) :
    encR (extractFields w).rA 0 0 8 = w &&& 0xFC0F := by
  rw [and_maskJr, hop, hf]
  rfl

end Encoder

/-! ### The rows of the opcode map (30_encoding.md R79) -/

/-- The mnemonic selected by an opcode and a func, the other fields 0. -/
def mnemonicAt (op : BitVec 3) (func : Func) : Option String :=
  match selectInstr ⟨op, 0, 0, 0, func, 0, 0⟩ with
  | .instr i => some i.mnemonic
  | .undefined => none

theorem selectFunc_mnemonic_congr {f g : Fields} (h : f.func = g.func) :
    (selectFunc f).mnemonic = (selectFunc g).mnemonic := by
  rw [selectFunc, selectFunc, h]
  split <;> rfl

/-- The other fields play no part in the selected mnemonic. -/
theorem exists_selectInstr_eq_mnemonicAt (f : Fields) :
    ∃ i, selectInstr f = .instr i ∧ mnemonicAt f.opcode f.func = some i.mnemonic := by
  refine selectInstr_elim (fun h => ?_) (fun h => ?_) (fun h => ?_) (fun h => ?_) (fun h => ?_) (fun h => ?_)
    (fun h => ?_) (fun h => ?_)
  · rw [mnemonicAt, h, selectInstr_func rfl]
    exact congrArg some (selectFunc_mnemonic_congr rfl)
  all_goals simp [h, mnemonicAt, selectInstr, Instr.mnemonic]

/-- A row sees only the opcode and the func of a word. -/
theorem fits_eq_fits_opcode_func (w : Word) (r : OpcodeRow) (hr : r ∈ opcodeRows) :
    r.fits w = r.fits ((extractFields w).opcode ++ 0#9 ++ (extractFields w).func) := by
  have hmask : ∀ r ∈ opcodeRows, 0xE00F &&& r.mask = r.mask := by decide
  rw [OpcodeRow.fits, OpcodeRow.fits, ← and_maskR, BitVec.and_assoc, hmask r hr]

/-- Each of the 128 pairs of an opcode and a func has exactly one row, and its mnemonic is the row's. -/
theorem exists_unique_row_opcode_func : ∀ (op : BitVec 3) (func : Func), ∃ r ∈ opcodeRows,
    r.fits (op ++ 0#9 ++ func) = true ∧ (∀ r' ∈ opcodeRows, r'.fits (op ++ 0#9 ++ func) = true → r' = r) ∧
      mnemonicAt op func = some r.mnemonic := by decide

/-! ### The statements on the coding -/

/-- Settles O24: the fields of an encoded word are the operands, and opcode and func select the instruction. -/
theorem decodeOfEncodeIsTheInstruction : Obligations.DecodeOfEncodeIsTheInstruction := by
  intro i hwf
  cases i with
  | add => simp [encode, decode, selectInstr_func, selectFunc_add, extractFields_encR]
  | sub => simp [encode, decode, selectInstr_func, selectFunc_sub, extractFields_encR]
  | or => simp [encode, decode, selectInstr_func, selectFunc_or, extractFields_encR]
  | and => simp [encode, decode, selectInstr_func, selectFunc_and, extractFields_encR]
  | slt rA rB rC func =>
    have hf : sltFunc func = true := hwf
    simp [encode, decode, selectInstr_func, selectFunc_slt, extractFields_encR, hf]
  | jr => simp [encode, decode, selectInstr_func, selectFunc_jr, extractFields_encR]
  | addi => simp [encode, decode, selectInstr_addi, extractFields_encI]
  | j => simp [encode, decode, selectInstr_j, extractFields_encJ]
  | jal => simp [encode, decode, selectInstr_jal, extractFields_encJ]
  | lw => simp [encode, decode, selectInstr_lw, extractFields_encI]
  | sw => simp [encode, decode, selectInstr_sw, extractFields_encI]
  | jeq => simp [encode, decode, selectInstr_jeq, extractFields_encI]
  | slti => simp [encode, decode, selectInstr_slti, extractFields_encI]

/-- The word the encoder gives back for an instruction decoded from `w`: `w`, but for a `jr` with bits 9–4 clear. -/
def EncodesBack (w : Word) (i : Instr) : Prop := encode i = if i.mnemonic = "jr" then w &&& 0xFC0F else w

theorem encodesBack_of_ne_jr {w : Word} {i : Instr} (h : encode i = w)
    (hi : i.mnemonic ≠ "jr" := by simp [Instr.mnemonic]) : EncodesBack w i := h.trans (if_neg hi).symm

theorem encodesBack_selectFunc {w : Word} (h : (extractFields w).opcode = 0) :
    EncodesBack w (selectFunc (extractFields w)) :=
  selectFunc_elim (fun hf => encodesBack_of_ne_jr (encR_extractFields h hf))
    (fun hf => encodesBack_of_ne_jr (encR_extractFields h hf))
    (fun hf => encodesBack_of_ne_jr (encR_extractFields h hf))
    (fun hf => encodesBack_of_ne_jr (encR_extractFields h hf))
    (fun hf => (encR_jr_extractFields h hf).trans (if_pos rfl).symm)
    (fun _ => encodesBack_of_ne_jr (encR_extractFields h rfl))

/-- Settles O25: the extracted fields, put back in the form of their opcode, are the word. -/
theorem encodeOfDecodeIsTheWord : Obligations.EncodeOfDecodeIsTheWord := by
  intro w i hd
  obtain ⟨i', hd', hi'⟩ := selectInstr_elim (f := extractFields w) (P := EncodesBack w) encodesBack_selectFunc
    (fun h => encodesBack_of_ne_jr (encI_extractFields h)) (fun h => encodesBack_of_ne_jr (encJ_extractFields h))
    (fun h => encodesBack_of_ne_jr (encJ_extractFields h)) (fun h => encodesBack_of_ne_jr (encI_extractFields h))
    (fun h => encodesBack_of_ne_jr (encI_extractFields h)) (fun h => encodesBack_of_ne_jr (encI_extractFields h))
    (fun h => encodesBack_of_ne_jr (encI_extractFields h))
  obtain rfl : i' = i := Decoded.instr.inj (hd'.symm.trans hd)
  exact hi'

/-- Settles O22: the selection has an instruction for every opcode, and each completes with its effect. -/
theorem everyWordIsAnInstruction : Obligations.EveryWordIsAnInstruction := by
  refine ⟨exists_decode_eq_wf, fun w hw => ?_, fun i s => ⟨_, Machine.exec_eq_effect i s⟩, fun s => ⟨s.advance, rfl,
    Machine.advance_pc s, Machine.advance_readReg s, Machine.advance_memRead s, Machine.advance_halted s⟩⟩
  obtain ⟨i, hi, -⟩ := exists_decode_eq_wf w
  cases hi.symm.trans hw

/-- Settles O23: the row is the one of the word's opcode and func. -/
theorem opcodeRowsPartitionTheWords : Obligations.OpcodeRowsPartitionTheWords := by
  intro w
  obtain ⟨r, hr, hfits, huniq, hrow⟩ := exists_unique_row_opcode_func (extractFields w).opcode (extractFields w).func
  obtain ⟨i, hi, hmnem⟩ := exists_selectInstr_eq_mnemonicAt (extractFields w)
  refine ⟨r, hr, (fits_eq_fits_opcode_func w r hr).trans hfits, fun r' hr' hfits' => huniq r' hr' ?_, i, hi, ?_⟩
  · exact (fits_eq_fits_opcode_func w r' hr').symm.trans hfits'
  · exact Option.some.inj (hmnem.symm.trans hrow)

/-- Settles O20. -/
theorem fieldsStandAtTheirBits : Obligations.FieldsStandAtTheirBits := fun w =>
  ⟨opcode_toNat w, rA_val w, rB_val w, rC_val w, imm13_toNat w, imm7_toNat w, func_toNat w⟩

/-- A func that selects an instruction of opcode 0 makes it the decoded one. -/
theorem decode_of_selectFunc {w : Word} {i : Instr} (hop : (extractFields w).opcode = 0)
    (h : selectFunc (extractFields w) = i) : decode w = .instr i :=
  (selectInstr_func hop).trans (congrArg Decoded.instr h)

/-- Settles O21: one equation per opcode and per func. -/
theorem opcodeAndFuncSelectTheInstruction : Obligations.OpcodeAndFuncSelectTheInstruction := fun _ =>
  ⟨fun hop => ⟨fun hf => decode_of_selectFunc hop (selectFunc_add hf),
      fun hf => decode_of_selectFunc hop (selectFunc_sub hf), fun hf => decode_of_selectFunc hop (selectFunc_or hf),
      fun hf => decode_of_selectFunc hop (selectFunc_and hf), fun hf => decode_of_selectFunc hop (selectFunc_jr hf),
      fun hf => decode_of_selectFunc hop (selectFunc_slt ((sltFunc_iff_mem _).mpr hf))⟩,
    selectInstr_addi, selectInstr_j, selectInstr_jal, selectInstr_lw, selectInstr_sw, selectInstr_jeq,
    selectInstr_slti⟩

end Sys2Proof

namespace Sys2Proof.Machine

/-! ### The immediate conversions (30_encoding.md R67 to R69) -/

/-- The 7-bit field as a two's-complement number. -/
theorem signed7_eq (v : Imm7) : signed7 v = if v.toNat ≤ 63 then (v.toNat : Int) else v.toNat - 128 := by
  have hand : (v &&& 63).toNat = v.toNat % 64 := by
    rw [BitVec.toNat_and]
    exact Nat.and_two_pow_sub_one_eq_mod v.toNat 6
  have hv := v.isLt
  unfold signed7
  split <;> omega

theorem signed7_eq_toSigned (v : Imm7) : signed7 v = toSigned v.toNat 7 := by
  rw [signed7_eq, toSigned]
  split <;> split <;> omega

theorem signedRel_eq_toSigned (x : Word) : signedRel x = toSigned x.toNat 16 := by
  rw [signedRel, toSigned]
  split <;> split <;> omega

theorem sext16_toNat (v : Imm7) : (sext16 v).toNat = if v.toNat ≤ 63 then v.toNat else v.toNat ||| 0xFF80 := by
  have hwidth : (v.setWidth 16).toNat = v.toNat := BitVec.toNat_setWidth_of_le (by decide)
  unfold sext16
  split
  · exact hwidth
  · rw [BitVec.toNat_or, hwidth]
    rfl

/-- The two conversions of the field agree mod 65536, for each of its 128 values. -/
theorem sext16_eq_mask16_signed7 : ∀ v : Imm7, sext16 v = mask16 (signed7 v) := by decide

/-- `mask16` of a sum with a 16-bit value is 16-bit addition (42_immediate_ops.md R130). -/
theorem mask16_uint_add (x : Word) (a : Int) : mask16 (uint x + a) = x + mask16 a := by
  have hsum := mask16_toNat (uint x + a)
  have ha := mask16_toNat a
  apply BitVec.eq_of_toNat_eq
  rw [BitVec.toNat_add]
  simp only [uint] at hsum ⊢
  omega

/-- Settles O27: both conversions are the two's-complement reading, and `mask16` is additive. -/
theorem immediateConversionsAgree : Obligations.ImmediateConversionsAgree :=
  ⟨fun x => ⟨rfl, signedRel_eq_toSigned x⟩, fun v => ⟨signed7_eq v, signed7_eq_toSigned v, sext16_toNat v,
    sext16_eq_mask16_signed7 v, branchOffset_eq_signed7 v,
    fun x => by rw [mask16_uint_add, sext16_eq_mask16_signed7]⟩⟩

/-! ### A destination of `$0` (30_encoding.md R75) -/

/-- Settles O39: an instruction with destination `$0` ends in a write-back, whose write is discarded. -/
theorem aZeroDestinationOnlyAdvances : Obligations.AZeroDestinationOnlyAdvances := by
  intro i s hd
  rw [exec_eq_effect]
  cases i with
  | jal | jr | j | sw | jeq => cases hd
  | add | sub | or | and | slt | addi | slti | lw =>
    rw [effect_of_writeBack s _ 0 hd rfl rfl rfl, writeReg_zero]
    rfl

end Sys2Proof.Machine
end

section
/-! PROOFS. 40_engine.md. A transition leaves the effect of the decoded instruction; the statements about runs follow
by one induction each. The listing of R102 is met field by field: `State.vars` carries each state operation to the
listing's, and the dispatch on the extracted fields has the effect of the instruction that the decoder selects. -/

namespace Sys2Proof.Machine

/-! ### The listing's operations are the state's (40_engine.md R102) -/

section Listing

variable (s : State)

@[simp] theorem vars_pc : s.vars.pc = s.pc := rfl
@[simp] theorem vars_x (r : RegIdx) : s.vars.x r = (s.readReg r).toNat := rfl
@[simp] theorem vars_mem (a : Addr) : s.vars.mem a = (s.memRead a).toNat := rfl
@[simp] theorem vars_halted : s.vars.halted = s.halted := rfl

theorem vars_setPc (t : Int) : (s.setPc t).vars = s.vars.goto t := rfl

theorem vars_halt : s.halt.vars = { s.vars with halted := true } := rfl

theorem vars_writeReg (r : RegIdx) (v : Word) : (s.writeReg r v).vars = s.vars.setReg r v.toNat := by
  by_cases hr : r = 0
  · simp [hr, Vars.setReg]
  · simp only [State.vars, Vars.setReg, hr, readReg_writeReg, writeReg_pc, writeReg_memRead, writeReg_halted]
    simp [apply_ite BitVec.toNat, hr]

theorem vars_memWrite (a : Addr) (v : Word) : (s.memWrite a v).vars = s.vars.setMem a v.toNat := by
  simp only [State.vars, Vars.setMem, memRead_memWrite, memWrite_pc, memWrite_readReg, memWrite_halted]
  simp [apply_ite BitVec.toNat]

/-- An instruction with a destination register sets that register and the pc. -/
theorem vars_effect_of_dest (i : Instr) (rd : RegIdx) (hd : destReg i = some rd) (hs : storeCell s i = none)
    (hh : s.haltsOn i = false) :
    (s.effect i).vars = (s.vars.setReg rd (s.result i).toNat).goto (nextPc s i) := by
  rw [effect_of_dest s i rd hd hs hh, vars_setPc, vars_writeReg]

/-- An instruction that writes neither a register nor a cell, and does not halt, sets the pc. -/
theorem vars_effect_of_jump (i : Instr) (hd : destReg i = none) (hs : storeCell s i = none)
    (hh : s.haltsOn i = false) : (s.effect i).vars = s.vars.goto (nextPc s i) := by
  rw [effect_of_jump s i hd hs hh, vars_setPc]

theorem vars_effect_sw (rA rB : RegIdx) (imm7 : Imm7) : (s.effect (.sw rA rB imm7)).vars =
    (s.vars.setMem (s.effAddr rA imm7) (s.readReg rB).toNat).goto (s.pc + 1) :=
  congrArg (Vars.goto · (s.pc + 1)) (vars_memWrite s (s.effAddr rA imm7) (s.readReg rB))

end Listing

/-! ### The listing's conversions are the model's (00_scope.md R9, 30_encoding.md R67 to R69) -/

theorem toNat_mask16 (x : Int) : (mask16 x).toNat = (x % 65536).toNat := by
  have h := mask16_toNat x
  omega

theorem numMask16_eq (x : Int) : numMask16 x = (mask16 x).toNat := (toNat_mask16 x).symm

theorem numSigned7_toNat (v : Imm7) : numSigned7 v.toNat = signed7 v := (signed7_eq v).symm

theorem numSext16_toNat (v : Imm7) : numSext16 v.toNat = (sext16 v).toNat := (sext16_toNat v).symm

/-- The branch offset of the listing is the sign extension of R67. -/
theorem numSignedRel_toNat_sext16 (v : Imm7) : numSignedRel (sext16 v).toNat = signed7 v := branchOffset_eq_signed7 v

/-! ### The listing's dispatch is the effect of the selected instruction -/

/-- The listing's dispatch on the decoder's fields, read as numbers. -/
def Vars.dispatchFields (m : Vars) (f : Fields) : Vars :=
  m.dispatch f.opcode.toNat f.rA f.rB f.rC f.func.toNat f.imm7.toNat f.imm13.toNat

/-- The listing takes its fields from the bits the decoder takes them from (30_encoding.md R61). -/
theorem dispatch_bits_eq_dispatchFields (m : Vars) (w : Word) :
    m.dispatch (bitsOf w.toNat 15 13) (regAt w.toNat 10) (regAt w.toNat 7) (regAt w.toNat 4) (bitsOf w.toNat 3 0)
      (bitsOf w.toNat 6 0) (bitsOf w.toNat 12 0) = m.dispatchFields (extractFields w) := by
  have hop : bitsOf w.toNat 15 13 = (extractFields w).opcode.toNat := by
    have hw := w.isLt
    rw [opcode_toNat, bitsOf]
    omega
  have hA : regAt w.toNat 10 = (extractFields w).rA := Fin.ext (rA_val w).symm
  have hB : regAt w.toNat 7 = (extractFields w).rB := Fin.ext (rB_val w).symm
  have hC : regAt w.toNat 4 = (extractFields w).rC := Fin.ext (rC_val w).symm
  have hfunc : bitsOf w.toNat 3 0 = (extractFields w).func.toNat := by simp [func_toNat, bitsOf]
  have h7 : bitsOf w.toNat 6 0 = (extractFields w).imm7.toNat := by simp [imm7_toNat, bitsOf]
  have h13 : bitsOf w.toNat 12 0 = (extractFields w).imm13.toNat := by simp [imm13_toNat, bitsOf]
  rw [hop, hA, hB, hC, hfunc, h7, h13, Vars.dispatchFields]

theorem vars_step_of_halted (s : State) (h : s.halted = true) : s.vars.step = s.vars := if_pos h

theorem vars_step_of_not_halted (s : State) (h : s.halted = false) :
    s.vars.step = s.vars.dispatchFields (extractFields s.fetch) :=
  (if_neg (by simp [h])).trans (dispatch_bits_eq_dispatchFields s.vars s.fetch)

/-- The listing's variables after the instruction are what its dispatch on the fields gives. -/
def State.RefinesDispatch (s : State) (f : Fields) (i : Instr) : Prop :=
  (s.effect i).vars = s.vars.dispatchFields f

theorem toNat_ne_of_sltFunc : ∀ func : Func, sltFunc func = true → func.toNat ≠ 0 ∧ func.toNat ≠ 1 ∧ func.toNat ≠ 2 ∧
    func.toNat ≠ 3 ∧ func.toNat ≠ 8 := by decide

section Dispatch

variable (s : State) {f : Fields}

/-- The opcode-0 arms of the listing. -/
theorem refinesDispatch_selectFunc (hop : f.opcode = 0) : s.RefinesDispatch f (selectFunc f) := by
  refine selectFunc_elim (fun hf => ?add) (fun hf => ?sub) (fun hf => ?or) (fun hf => ?and) (fun hf => ?jr)
    (fun hf => ?slt)
  case jr =>
    rw [State.RefinesDispatch, vars_effect_of_jump s (.jr f.rA) rfl rfl rfl]
    simp [Vars.dispatchFields, Vars.dispatch, hop, hf, nextPc]
  case slt =>
    obtain ⟨h0, h1, h2, h3, h8⟩ := toNat_ne_of_sltFunc f.func hf
    have hless : (s.result (.slt f.rA f.rB f.rC f.func)).toNat = if s.vars.x f.rA < s.vars.x f.rB then 1 else 0 :=
      setLess_toNat _ _
    rw [State.RefinesDispatch, vars_effect_of_dest s _ f.rC rfl rfl rfl, hless]
    simp [-vars_x, Vars.dispatchFields, Vars.dispatch, hop, h0, h1, h2, h3, h8, nextPc]
  case add | sub | or | and =>
    rw [State.RefinesDispatch, vars_effect_of_dest s _ f.rC rfl rfl rfl]
    simp [Vars.dispatchFields, Vars.dispatch, hop, hf, nextPc, State.result, numMask16_eq, uint]

/-- The halt check of the listing, and its arm for `j`. -/
theorem refinesDispatch_j (hop : f.opcode = 2) : s.RefinesDispatch f (.j f.imm13) := by
  by_cases hpc : (f.imm13.toNat : Int) = s.pc
  · rw [State.RefinesDispatch, effect_selfJump s f.imm13 hpc, vars_halt]
    simp [Vars.dispatchFields, Vars.dispatch, hop, hpc]
  · have hcheck : s.haltsOn (.j f.imm13) = false :=
      Bool.eq_false_of_not_eq_true fun h => hpc ((haltCheck_iff s f.imm13).mp h)
    rw [State.RefinesDispatch, vars_effect_of_jump s (.j f.imm13) rfl rfl hcheck]
    simp [Vars.dispatchFields, Vars.dispatch, hop, hpc, nextPc]

/-- The arm of the listing for `jeq`, its offset the composition of R69. -/
theorem refinesDispatch_jeq (hop : f.opcode = 6) : s.RefinesDispatch f (.jeq f.rA f.rB f.imm7) := by
  rw [State.RefinesDispatch, vars_effect_of_jump s _ rfl rfl rfl]
  simp [Vars.dispatchFields, Vars.dispatch, hop, nextPc, numSext16_toNat, numSignedRel_toNat_sext16, BitVec.toNat_inj,
    apply_ite s.vars.goto]

/-- The decoder selects an instruction whose effect is the listing's arm for the same fields. -/
theorem exists_selectInstr_refinesDispatch (f : Fields) :
    ∃ i, selectInstr f = .instr i ∧ s.RefinesDispatch f i := by
  refine selectInstr_elim (refinesDispatch_selectFunc s) (fun hop => ?addi) (refinesDispatch_j s) (fun hop => ?jal)
    (fun hop => ?lw) (fun hop => ?sw) (refinesDispatch_jeq s) (fun hop => ?slti)
  case sw =>
    rw [State.RefinesDispatch, vars_effect_sw]
    simp [Vars.dispatchFields, Vars.dispatch, hop, numSigned7_toNat, State.effAddr, uint]
  case jal =>
    rw [State.RefinesDispatch, vars_effect_of_dest s _ 7 rfl rfl rfl]
    simp [Vars.dispatchFields, Vars.dispatch, hop, nextPc, State.result, numMask16_eq]
  case addi | lw | slti =>
    rw [State.RefinesDispatch, vars_effect_of_dest s _ f.rB rfl rfl rfl]
    simp [Vars.dispatchFields, Vars.dispatch, hop, nextPc, State.result, numMask16_eq, numSigned7_toNat,
      numSext16_toNat, setLess_toNat, State.effAddr, uint]

end Dispatch

/-- Settles O34: a halted state stands still on both sides; from any other, the listing's dispatch on the fetched
word's fields is the effect of the decoded instruction. -/
theorem theStepRefinesTheListing : Obligations.TheStepRefinesTheListing := by
  intro s
  cases hs : s.halted with
  | true => exact ⟨s, step_of_halted s hs, (vars_step_of_halted s hs).symm⟩
  | false =>
    obtain ⟨i, hd, hi⟩ := exists_selectInstr_refinesDispatch s (extractFields s.fetch)
    exact ⟨s.effect i, (step_of_decode s i hs hd).trans (exec_eq_effect i s),
      Eq.trans hi (vars_step_of_not_halted s hs).symm⟩

/-! ### One step (40_engine.md R91 to R95) -/

/-- Settles O28. -/
theorem stepRunsTheDecodedInstruction : Obligations.StepRunsTheDecodedInstruction := step_of_decode

/-- `withFetchWord` leaves its word to be fetched (log entry 9). -/
theorem withFetchWord_fetch (s : State) (nbits w : Nat) : (s.withFetchWord nbits w).fetch = tableWord nbits w :=
  fetch_memWrite_of_eq s (wrap s.pc) (tableWord nbits w) rfl

theorem decodeTableWord_eq_some_iff (nbits w : Nat) (i : Instr) :
    decodeTableWord nbits w = some i ↔ decode (tableWord nbits w) = .instr i := by
  unfold decodeTableWord
  cases decode (tableWord nbits w) <;> simp

/-- Settles O29: the state of `withFetchWord` is not halted and fetches the table word. -/
theorem theTableWordIsFetchedNext : Obligations.TheTableWordIsFetchedNext := by
  intro s nbits w i hi
  refine step_of_decode _ i rfl ?_
  rw [withFetchWord_fetch]
  exact (decodeTableWord_eq_some_iff nbits w i).mp hi

/-- Every step answers a next state: the state itself where it is halted, else an effect. -/
theorem exists_step_eq_next (s : State) : ∃ t, step s = .next t := by
  cases hs : s.halted with
  | true => exact ⟨s, step_of_halted s hs⟩
  | false =>
    obtain ⟨i, -, hi⟩ := exists_step_eq_effect s hs
    exact ⟨_, hi⟩

/-- Settles O33: a step has one answer, a next state, and by induction so has any number of steps. -/
theorem theStepIsTotal : Obligations.TheStepIsTotal := by
  refine ⟨fun s _ => ?_, fun n => ?_⟩
  · obtain ⟨t, ht⟩ := exists_step_eq_next s
    exact ⟨t, ht, fun u hu => Host.Outcome.next.inj (hu.symm.trans ht)⟩
  · induction n with
    | zero => exact fun s => ⟨s, rfl⟩
    | succ n ih =>
      intro s
      obtain ⟨t, ht⟩ := exists_step_eq_next s
      obtain ⟨u, hu⟩ := ih t
      exact ⟨u, (core_run_succ s n t ht).trans hu⟩

/-! ### The halt check (40_engine.md R93) -/

section HaltCheck

variable {s : State} {imm13 : Imm13}

theorem step_selfJump (hs : s.halted = false) (hd : decode s.fetch = .instr (.j imm13))
    (hpc : (imm13.toNat : Int) = s.pc) : step s = .next s.halt := by
  rw [step_of_decode s _ hs hd, exec_eq_effect, effect_selfJump s imm13 hpc]

theorem step_j_of_ne (hs : s.halted = false) (hd : decode s.fetch = .instr (.j imm13))
    (hpc : (imm13.toNat : Int) ≠ s.pc) : step s = .next (s.setPc imm13.toNat) := by
  rw [step_of_decode s _ hs hd, exec_j, if_neg (mt (haltCheck_iff s imm13).mp hpc)]
  rfl

/-- An address is its own wrapped value. -/
theorem wrap_natCast_val (a : Addr) : wrap (a.val : Int) = a := wrap_eq_of_val _ a (by omega)

/-- Pcs that wrap to one cell fetch the same word. -/
theorem fetch_setPc_of_wrap_eq (s : State) (t : Int) (h : wrap t = wrap s.pc) : (s.setPc t).fetch = s.fetch :=
  congrArg s.memRead h

theorem onlyJumps_setPc (s : State) (t : Int) : OnlyJumps s (s.setPc t) t := ⟨rfl, fun _ => rfl, fun _ => rfl, rfl⟩

end HaltCheck

/-- Settles O31: imm13 is in [0, 8191], so a pc outside it is jumped from; a `j` in its own target's cell is fetched
again, at a pc that it equals. -/
theorem haltCheckComparesTheUnreducedPc : Obligations.HaltCheckComparesTheUnreducedPc := by
  intro s imm13 hs hd
  have himm := imm13.isLt
  refine ⟨fun hpc => ⟨step_selfJump hs hd hpc, by omega, by omega⟩,
    fun hpc => ⟨_, step_j_of_ne hs hd hpc, onlyJumps_setPc s _⟩,
    fun hout => ⟨_, step_j_of_ne hs hd (by omega), onlyJumps_setPc s _, fun hcell => ?_⟩⟩
  have hfetch := fetch_setPc_of_wrap_eq s imm13.toNat (hcell ▸ wrap_natCast_val (wrap s.pc))
  exact step_selfJump hs (hfetch.symm ▸ hd) rfl

/-! ### Transitions and runs (40_engine.md R100, R101, R103) -/

/-- All a transition can do: it leaves the effect of the decoded instruction. -/
theorem Transition.eq_effect {s t : State} (h : Transition s t) :
    s.halted = false ∧ ∃ i, decode s.fetch = .instr i ∧ t = s.effect i := by
  obtain ⟨hs, ht⟩ := h
  obtain ⟨i, hd, hi⟩ := exists_step_eq_effect s hs
  exact ⟨hs, i, hd, Host.Outcome.next.inj (ht.symm.trans hi)⟩

theorem not_transition_of_halted {s : State} (h : s.halted = true) (t : State) : ¬ Transition s t :=
  fun ⟨hs, _⟩ => Bool.false_ne_true (hs.symm.trans h)

theorem Transition.unique {s t u : State} (ht : Transition s t) (hu : Transition s u) : t = u :=
  Host.Outcome.next.inj (ht.2.symm.trans hu.2)

/-- A property that every transition keeps holds at the end of a run that starts with it. -/
theorem Run.keeps {P : State → Prop} (hstep : ∀ s t, Transition s t → P s → P t) {n : Nat} {s t : State}
    (hrun : Run n s t) (hs : P s) : P t := by
  induction hrun with
  | start => exact hs
  | more n s t u hst _ ih => exact ih (hstep s t hst hs)

/-- Settles O30: a halted state is its own next state, and a transition leaves only states that are not halted. -/
theorem theHaltedStateIsFinal : Obligations.TheHaltedStateIsFinal := by
  refine fun s hs => ⟨fun n => ?_, not_transition_of_halted hs⟩
  induction n with
  | zero => rfl
  | succ n ih => exact (core_run_succ s n s (step_of_halted s hs)).trans ih

/-- Settles O32: the effect of the decoded instruction is halted exactly where the halt check fires on it. -/
theorem onlyASelfJumpHalts : Obligations.OnlyASelfJumpHalts := by
  intro s t hst
  obtain ⟨hs, i, hd, rfl⟩ := hst.eq_effect
  rw [effect_halted, hs, Bool.or_false, haltsOn_iff, hd]
  simp

/-- Settles O46: every transition leaves a state that is halted only on its self-jump. -/
theorem aRunEndsOnASelfJump : Obligations.ARunEndsOnASelfJump := by
  intro n s t hs ⟨hrun, ht⟩
  have hkeep : ∀ s t : State, Transition s t → s.haltedOnSelfJump → t.haltedOnSelfJump := fun s t hst _ => by
    obtain ⟨hs, i, hd, rfl⟩ := hst.eq_effect
    exact effect_haltedOnSelfJump s i hs hd
  obtain ⟨imm13, hd, hpc⟩ := hrun.keeps hkeep (haltedOnSelfJump_of_not_halted s hs) ht
  have himm := imm13.isLt
  exact ⟨by omega, by omega, imm13, hd, hpc⟩

/-- Settles O47, by induction on the first run: no run goes on from a halted state, and a transition has one
successor. -/
theorem aRunHasOneEnd : Obligations.ARunHasOneEnd := by
  rintro n m s t u ⟨hrun, ht⟩ ⟨hrun', hu⟩
  induction hrun generalizing m with
  | start s =>
    cases hrun' with
    | start => exact ⟨rfl, rfl⟩
    | more _ _ _ _ hst => exact absurd hst (not_transition_of_halted ht _)
  | more n s s₁ t hst _ ih =>
    cases hrun' with
    | start => exact absurd hst (not_transition_of_halted hu _)
    | more m _ s₂ _ hst' hrest =>
      obtain rfl := hst.unique hst'
      obtain ⟨rfl, htu⟩ := ih m ht hrest
      exact ⟨rfl, htu⟩

/-! ### Operands are read before the write (40_engine.md R96) -/

/-- An instruction leaves in its destination the result computed from the state before. -/
theorem leaves_of_result {s : State} {i : Instr} {r : RegIdx} {v : Nat} (hr : r ≠ 0) (hd : destReg i = some r)
    (hv : (s.result i).toNat = v) : Leaves i s r v :=
  ⟨s.effect i, exec_eq_effect i s, by rw [effect_readReg_dest s i r hd, if_neg hr, hv]⟩

theorem toNat_mask16_uint_add (a b : Word) : (mask16 (uint a + uint b)).toNat = (a.toNat + b.toNat) % 65536 := by
  rw [toNat_mask16, uint, uint]
  omega

/-- Settles O38: each conjunct is the result of its instruction in the state before, as a number. -/
theorem operandsAreReadBeforeTheWrite : Obligations.OperandsAreReadBeforeTheWrite := by
  intro r k func imm7 s hr
  refine ⟨?addL, ?addR, ?subL, ?subR, ?orL, ?orR, ?andL, ?andR, fun _ => ⟨?sltL, ?sltR⟩, ?addi, ?slti, ?lw⟩
  case addL | addR => exact leaves_of_result hr rfl (toNat_mask16_uint_add _ _)
  case subL | subR | addi => exact leaves_of_result hr rfl (toNat_mask16 _)
  case orL | orR => exact leaves_of_result hr rfl (BitVec.toNat_or _ _)
  case andL | andR => exact leaves_of_result hr rfl (BitVec.toNat_and _ _)
  case sltL | sltR | slti => exact leaves_of_result hr rfl (setLess_toNat _ _)
  case lw => exact leaves_of_result hr rfl rfl

end Sys2Proof.Machine
end

section
/-! PROOFS. 41_register_ops.md. The rows of opcode 0 are told apart by the func (R110), so each pattern is checked on
the pairs of an opcode and a func. An instruction that ends in a write-back changes its destination and the pc alone,
which is said once for all of them. -/

namespace Sys2Proof.Machine

/-! ### The opcode-0 patterns (30_encoding.md R79) -/

/-- A pattern whose mask sees only opcode and func, and which only opcode 0 with a func in `P` meets, decodes to what
a func in `P` selects. -/
theorem decodesUnder_of_func (P : Func → Prop) {mask pattern : Word} {k : Fields → Instr}
    (hmask : 0xE00F &&& mask = mask)
    (hrow : ∀ (op : BitVec 3) (func : Func), (op ++ 0#9 ++ func) &&& mask = pattern → op = 0 ∧ P func)
    (hk : ∀ {f : Fields}, P f.func → selectFunc f = k f) : DecodesUnder mask pattern k := by
  intro w hw
  rw [← hmask, ← BitVec.and_assoc, and_maskR] at hw
  obtain ⟨hop, hfunc⟩ := hrow _ _ hw
  exact decode_of_selectFunc hop (hk hfunc)

/-- A pattern that only well-formed `slt` funcs meet decodes to `slt` (41_register_ops.md R115). -/
theorem decodesUnder_slt {mask pattern : Word} (hmask : 0xE00F &&& mask = mask)
    (hrow : ∀ (op : BitVec 3) (func : Func), (op ++ 0#9 ++ func) &&& mask = pattern → op = 0 ∧ sltFunc func = true) :
    DecodesUnder mask pattern (fun f => .slt f.rA f.rB f.rC f.func) :=
  decodesUnder_of_func (sltFunc · = true) hmask hrow selectFunc_slt

/-! ### The write-back (40_engine.md R97) -/

/-- An instruction that ends in a write-back completes, and writes its result to its destination alone. -/
theorem exec_writesReg {s : State} {i : Instr} {rd : RegIdx} {v : Nat} (hd : destReg i = some rd)
    (hs : storeCell s i = none) (hh : s.haltsOn i = false) (hpc : nextPc s i = s.pc + 1)
    (hv : (s.result i).toNat = v) : ∃ t, exec i s = .next t ∧ WritesReg s t rd v := by
  refine ⟨s.effect i, exec_eq_effect i s, fun hrd => ?result, fun r hr => ?regs, hpc, fun a => ?cells, ?halted⟩
  case result => rw [effect_readReg_dest s i rd hd, if_neg hrd, hv]
  case regs =>
    obtain rfl | hr := hr
    · rfl
    · exact effect_readReg_of_ne s i r fun h => hr (Option.some.inj (h.symm.trans hd))
  case cells => exact effect_memRead_of_ne s i a (by simp [hs])
  case halted => rw [effect_halted, hh, Bool.false_or]

/-! ### The statements -/

/-- Settles O1. -/
theorem addWritesTheWrappedSum : Obligations.AddWritesTheWrappedSum :=
  ⟨decodesUnder_of_func (· = 0) rfl (by decide) selectFunc_add,
    fun _ _ _ _ => exec_writesReg rfl rfl rfl rfl (toNat_mask16_uint_add _ _)⟩

/-- Settles O2. -/
theorem subWritesTheWrappedDifference : Obligations.SubWritesTheWrappedDifference :=
  ⟨decodesUnder_of_func (· = 1) rfl (by decide) selectFunc_sub,
    fun _ _ _ _ => exec_writesReg rfl rfl rfl rfl (toNat_mask16 _)⟩

/-- Settles O3. -/
theorem orWritesTheBitwiseOr : Obligations.OrWritesTheBitwiseOr :=
  ⟨decodesUnder_of_func (· = 2) rfl (by decide) selectFunc_or,
    fun _ _ _ _ => exec_writesReg rfl rfl rfl rfl (BitVec.toNat_or _ _)⟩

/-- Settles O4. -/
theorem andWritesTheBitwiseAnd : Obligations.AndWritesTheBitwiseAnd :=
  ⟨decodesUnder_of_func (· = 3) rfl (by decide) selectFunc_and,
    fun _ _ _ _ => exec_writesReg rfl rfl rfl rfl (BitVec.toNat_and _ _)⟩

/-- Settles O5: the four patterns meet only funcs of R115, and the meaning does not look at the func. -/
theorem sltWritesTheUnsignedComparison : Obligations.SltWritesTheUnsignedComparison :=
  ⟨decodesUnder_slt rfl (by decide), decodesUnder_slt rfl (by decide), decodesUnder_slt rfl (by decide),
    decodesUnder_slt rfl (by decide), fun _ _ _ _ _ => exec_writesReg rfl rfl rfl rfl (setLess_toNat _ _)⟩

/-- Settles O6: the jump sets the pc alone, and the fetch reads the cell that `wrap` gives. -/
theorem jrSetsThePcToTheRegister : Obligations.JrSetsThePcToTheRegister := by
  refine ⟨decodesUnder_of_func (· = 8) rfl (by decide) selectFunc_jr, fun rA s =>
    ⟨_, exec_jr s rA, onlyJumps_setPc s _, fun a ha => ?_⟩⟩
  have hcell : wrap (uint (s.readReg rA)) = a := wrap_eq_of_val _ a (congrArg Int.ofNat ha)
  rw [State.fetch, setPc_pc, setPc_memRead, hcell]

end Sys2Proof.Machine
end

section
/-! PROOFS. 42_immediate_ops.md. A row whose mask sees the opcode alone decodes to what that opcode selects, which is
said once for every such row; the results are written back by `exec_writesReg`. -/

namespace Sys2Proof.Machine

/-! ### The one-opcode patterns (30_encoding.md R79) -/

/-- A pattern that is an opcode above 13 zero bits decodes to what the opcode selects. -/
theorem decodesUnder_of_opcode (op : BitVec 3) {pattern : Word} {k : Fields → Instr} (hpattern : pattern = op ++ 0#13)
    (hk : ∀ {f : Fields}, f.opcode = op → selectInstr f = .instr (k f)) : DecodesUnder 0xE000 pattern k :=
  fun w hw => hk ((and_maskI_iff w op).mp (hw.trans hpattern))

/-! ### The statements -/

/-- Settles O7: opcode 1, and the write-back of the sum that `mask16` wraps. -/
theorem addiWritesTheWrappedSum : Obligations.AddiWritesTheWrappedSum :=
  ⟨decodesUnder_of_opcode 1 rfl selectInstr_addi, fun _ _ _ _ => exec_writesReg rfl rfl rfl rfl (toNat_mask16 _)⟩

/-- Settles O8: opcode 7, and the write-back of the comparison with the sign-extended immediate. -/
theorem sltiWritesTheUnsignedComparison : Obligations.SltiWritesTheUnsignedComparison :=
  ⟨decodesUnder_of_opcode 7 rfl selectInstr_slti, fun _ _ _ _ => exec_writesReg rfl rfl rfl rfl (setLess_toNat _ _)⟩

end Sys2Proof.Machine
end

section
/-! PROOFS. 43_control_transfer.md. An instruction that writes neither a register nor a cell jumps to the pc of the
table of 10_state.md R28 and changes nothing else, unless the halt check fires; of `jal` only the link is used. -/

namespace Sys2Proof.Machine

/-! ### Jumps and the link -/

/-- An instruction that writes neither a register nor a cell, and does not halt, completes and sets the pc alone. -/
theorem exec_onlyJumps {s : State} {i : Instr} {target : Int} (hd : destReg i = none) (hs : storeCell s i = none)
    (hh : s.haltsOn i = false) (hpc : nextPc s i = target) : ∃ t, exec i s = .next t ∧ OnlyJumps s t target := by
  refine ⟨s.effect i, exec_eq_effect i s, ?_⟩
  rw [effect_of_jump s i hd hs hh, hpc]
  exact onlyJumps_setPc s target

theorem haltsOn_j_of_ne {s : State} {imm13 : Imm13} (h : (imm13.toNat : Int) ≠ s.pc) : s.haltsOn (.j imm13) = false :=
  Bool.eq_false_of_not_eq_true (mt (haltCheck_iff s imm13).mp h)

/-- The table's pc of `jeq`, with its offset as the composition of 30_encoding.md R69. -/
theorem nextPc_jeq (s : State) (rA rB : RegIdx) (imm7 : Imm7) : nextPc s (.jeq rA rB imm7) =
    if s.readReg rA = s.readReg rB then s.pc + 1 + signedRel (sext16 imm7) else s.pc + 1 := by
  have hoffset : signedRel (sext16 imm7) = signed7 imm7 := branchOffset_eq_signed7 imm7
  rw [hoffset, nextPc]

/-- `jal` links pc + 1 mod 65536 (43_control_transfer.md R141). -/
theorem link_of_exec_jal {s t : State} {imm13 : Imm13} (h : exec (.jal imm13) s = .next t) :
    ((t.readReg 7).toNat : Int) = (s.pc + 1) % 65536 := by
  obtain rfl : s.effect (.jal imm13) = t := Host.Outcome.next.inj ((exec_eq_effect _ s).symm.trans h)
  rw [effect_readReg_dest s (.jal imm13) 7 rfl, if_neg (by decide)]
  exact mask16_toNat (s.pc + 1)

/-! ### The statements -/

/-- Settles O41: `jr` jumps to the link, which is pc + 1 itself where that is a 16-bit value. -/
theorem jrReturnsFromJal : Obligations.JrReturnsFromJal := by
  intro imm13 s t u hlo hhi hjal hkept
  refine ⟨_, exec_jr u 7, ?_⟩
  calc ((u.readReg 7).toNat : Int)
    _ = (t.readReg 7).toNat := by rw [hkept]
    _ = (s.pc + 1) % 65536 := link_of_exec_jal hjal
    _ = s.pc + 1 := Int.emod_eq_of_lt hlo (by omega)

/-- Settles O9: opcode 2; the halt check tells the jump from the self-jump. -/
theorem jJumpsOrHalts : Obligations.JJumpsOrHalts := by
  refine ⟨decodesUnder_of_opcode 2 rfl selectInstr_j, fun imm13 s => ⟨fun hne => ?jump, fun hself => ?halt⟩⟩
  case jump => exact exec_onlyJumps rfl rfl (haltsOn_j_of_ne hne) rfl
  case halt =>
    rw [exec_eq_effect, effect_selfJump s imm13 hself]
    rfl

/-- Settles O11: opcode 6, and the jump to the table's pc. -/
theorem jeqBranchesOnEquality : Obligations.JeqBranchesOnEquality :=
  ⟨decodesUnder_of_opcode 6 rfl selectInstr_jeq,
    fun rA rB imm7 s => exec_onlyJumps rfl rfl rfl (nextPc_jeq s rA rB imm7)⟩

end Sys2Proof.Machine
end

section
/-! PROOFS. 44_load_store.md. `lw` writes back the cell at the effective address; a store changes its cell and the pc
alone. `wrap` keeps the low 13 bits of what `mask16` keeps, so the effective address is that of the 16-bit sum. -/

namespace Sys2Proof.Machine

/-! ### The effective address (44_load_store.md R160) -/

/-- `wrap` is determined by the value mod 65536, of which 8192 is a divisor. -/
theorem wrap_val_eq_mask16_mod (x : Int) : (wrap x).val = (mask16 x).toNat % 8192 := by
  have hwrap := wrap_val x
  have hmask := mask16_toNat x
  omega

/-- Settles O18: the 16-bit sum is `mask16` of the sum that `wrap` reduces. -/
theorem effectiveAddressIsTheLowBitsOfTheSum : Obligations.EffectiveAddressIsTheLowBitsOfTheSum := by
  intro s rA imm7
  rw [State.effAddr, wrap_val_eq_mask16_mod, mask16_uint_add, sext16_eq_mask16_signed7]

/-! ### Load and store -/

/-- Settles O12: opcode 4, and the write-back of the cell at the effective address. -/
theorem lwLoadsTheCell : Obligations.LwLoadsTheCell :=
  ⟨decodesUnder_of_opcode 4 rfl selectInstr_lw, fun _ _ _ _ => exec_writesReg rfl rfl rfl rfl rfl⟩

/-- Settles O13: opcode 5, and the frame of the effect, whose store cell is the effective address. -/
theorem swStoresTheRegister : Obligations.SwStoresTheRegister := by
  refine ⟨decodesUnder_of_opcode 5 rfl selectInstr_sw, fun rA rB imm7 s =>
    ⟨_, exec_eq_effect (.sw rA rB imm7) s, ?cell, fun a ha => ?cells, effect_pc s _, fun r => ?regs, effect_halted s _⟩⟩
  case cell => exact effect_memRead_storeCell s (.sw rA rB imm7) _ rfl
  case cells => exact effect_memRead_of_ne s _ a fun h => ha (Option.some.inj h).symm
  case regs => exact effect_readReg_of_ne s _ r nofun

end Sys2Proof.Machine
end

section
/-! PROOFS. 70_reset_and_hazards.md. The reset state is read once, register by register and cell by cell; a load that is
accepted is that state with the image's cells in memory (R190, R191), whose reads and canonical form Laws/Memory gives. -/

namespace Sys2Proof.Machine

/-! ### The reset state (R191, 10_state.md R37) -/

@[simp] theorem reset_pc : State.reset.pc = 0 := rfl
@[simp] theorem reset_halted : State.reset.halted = false := rfl
@[simp] theorem reset_memRead (a : Addr) : State.reset.memRead a = 0 := rfl

@[simp] theorem reset_readReg (r : RegIdx) : State.reset.readReg r = 0 := by
  fin_cases r <;> rfl

/-- Settles O42: the fetch goes to `wrap 0`, which is cell 0; the rest is the reset state's own lemmas. -/
theorem resetStartsAtCellZero : Obligations.ResetStartsAtCellZero :=
  ⟨reset_pc, congrArg State.reset.memRead (wrap_natCast_val 0), reset_readReg, reset_halted, reset_memRead⟩

/-! ### Load (R190, R192) -/

/-- The state an accepted load leaves: the reset state with the image in the cells from 0 on. -/
def State.loaded (image : List Word) : State := { State.reset with mem := imageCells 0 image }

theorem load_of_length_le (image : List Word) (h : image.length ≤ 8192) : load image = .next (State.loaded image) :=
  if_pos h

theorem load_of_length_gt (image : List Word) (h : 8192 < image.length) : load image = .refused .imageTooLong :=
  if_neg (Nat.not_le.mpr h)

@[simp] theorem loaded_pc (image : List Word) : (State.loaded image).pc = 0 := rfl
@[simp] theorem loaded_halted (image : List Word) : (State.loaded image).halted = false := rfl
@[simp] theorem loaded_readReg (image : List Word) (r : RegIdx) : (State.loaded image).readReg r = 0 := reset_readReg r

/-- The image stands in the low cells, and 0 in every other. -/
theorem loaded_memRead (image : List Word) (a : Addr) : (State.loaded image).memRead a = image.getD a.val 0 :=
  read_imageCells image 0 a (Nat.zero_le _)

/-- The image's cells are in canonical form, and the block is not halted. -/
theorem loaded_inv (image : List Word) (h : image.length ≤ 8192) : (State.loaded image).Inv :=
  ⟨wf_imageCells image 0 (by omega), haltedOnSelfJump_of_not_halted _ (loaded_halted image)⟩

/-- Settles O43: `load` ignores the state it acts on, and the image's length decides between `State.loaded` and the
refusal. -/
theorem loadIsAFullReset : Obligations.LoadIsAFullReset := by
  intro image s
  refine ⟨fun hfits => ?accepted, fun hlong => ?refused⟩
  case accepted =>
    exact ⟨State.loaded image, load_of_length_le image hfits, loaded_pc image, loaded_readReg image, loaded_halted image,
      loaded_memRead image, loaded_inv image hfits⟩
  case refused => exact load_of_length_gt image hlong

end Sys2Proof.Machine
end

section
/-! PROOFS. The remaining statements: `jal`, from the frame of its effect and its link, and the sample words, from
what each instruction's own statement says of the words under its mask and match. -/

namespace Sys2Proof.Machine

/-- Settles O10: opcode 3, and the frame of the effect, whose destination is `$7`; the link mod 65536 is pc + 1 itself
where that is a 16-bit value. -/
theorem jalLinksAndJumps : Obligations.JalLinksAndJumps := by
  refine ⟨decodesUnder_of_opcode 3 rfl selectInstr_jal, fun imm13 s => ?_⟩
  have hexec := exec_eq_effect (.jal imm13) s
  have hlink := link_of_exec_jal hexec
  refine ⟨s.effect (.jal imm13), hexec, fun hlo hhi => ?exact, hlink, fun r hr => ?regs, effect_pc s _, fun a => ?cells,
    effect_halted s _⟩
  case exact => exact hlink.trans (Int.emod_eq_of_lt hlo (by omega))
  case regs => exact effect_readReg_of_ne s _ r fun h => hr (Option.some.inj h).symm
  case cells => exact effect_memRead_of_ne s _ a nofun

/-- Settles O26: each word fits the mask and match of its instruction, whose statement says what such a word decodes to;
the `jr` word has bits 9–4 set, which its mask leaves free. -/
theorem sampleWordsDecode : Obligations.SampleWordsDecode :=
  ⟨addWritesTheWrappedSum.1 _ rfl, addiWritesTheWrappedSum.1 _ rfl, jJumpsOrHalts.1 _ rfl, swStoresTheRegister.1 _ rfl,
    jrSetsThePcToTheRegister.1 _ rfl⟩

end Sys2Proof.Machine
end
